-- ==== Sys2Proof/Word.lean ====
section
/-! DEFINITION. The one word type of the CORE: every register value, memory cell, address, `pc` and ALU result is an
unsigned 8-bit value (00_scope.md R6; widths XLEN and ALEN of R5). -/

namespace Sys2Proof

/-- A register value, a memory cell or an ALU result: XLEN = 8 bits, unsigned (R5, R6). -/
abbrev Byte := BitVec 8

/-- A memory address, `pc` among them: ALEN = 8 bits (R5, R14, R40). -/
abbrev Addr := BitVec 8

end Sys2Proof
end

