-- ==== Sys2Proof/Config.lean ====
section
/-! DEFINITION. The implementation parameters of the CORE as one record, with the values the spec decides
(00_scope.md R5). The widths XLEN and ALEN are the types `Byte` and `Addr`; the FL layout is in Machine/Flags.lean; the opcode
fields and values are in Decode.lean; MEM_INIT, the one open parameter, is the argument of `Machine.State.boot`.
No rule of the spec leaves a value free, so there is no opaque constant here. -/

namespace Sys2Proof

/-- The parameters of R5 that are values. -/
structure Config where
  /-- NREGS: the number of general registers. -/
  nregs : Nat
  /-- SP: the index of the stack-pointer register. -/
  spIndex : Nat
  /-- MEM_SIZE: the number of memory cells. -/
  memSize : Nat
  /-- SP_INIT: the reset value of the stack pointer. -/
  spInit : Byte
  /-- RESET_PC: the address of the first instruction. -/
  resetPc : Addr
  /-- What a cell that the model's memory does not list reads as: the "0 elsewhere" of R193.
  DESIGN CHOICE for State.reset's memory, unsafe: log entry 1. -/
  unlisted : Byte
deriving DecidableEq, Repr

/-- The decided values (R5). UNVERIFIED where R5 marks them as general knowledge, unsafe: log entry 13. -/
def Config.core : Config :=
  { nregs := 8, spIndex := 7, memSize := 256, spInit := 0xF4, resetPc := 0x00, unlisted := 0x00 }

end Sys2Proof
end

