-- ==== Sys2Proof/Syntax.lean ====
section
/-! DEFINITION. The instructions of the CORE ISA as syntax: 23 rows, one constructor each (30_encoding.md R60, R66). A register operand is a
`Reg`, so an index outside 0..7 cannot be written: the decoder rejects such a byte first (R6, R65). -/

namespace Sys2Proof

/-- A general register R0 .. R7 (10_state.md R10). -/
abbrev Reg := Fin 8

/-- The 23 mnemonics (R66). -/
inductive Op where
  | nop | hlt | ret
  | push | pop | prn | call | jmp | jeq | jne
  | not | ldi
  | add | sub | mult | div | mod | cmp | and | or | xor | shl | shr
deriving DecidableEq, Repr

/-- The four instruction formats of R60. -/
inductive Format where
  /-- opcode only -/
  | z
  /-- opcode, register index -/
  | r
  /-- opcode, two register indexes -/
  | rr
  /-- opcode, register index, literal -/
  | ri
deriving DecidableEq, Repr

/-- The format column of R66. -/
def Op.format : Op → Format
  | .nop | .hlt | .ret => .z
  | .push | .pop | .prn | .call | .jmp | .jeq | .jne | .not => .r
  | .add | .sub | .mult | .div | .mod | .cmp | .and | .or | .xor | .shl | .shr => .rr
  | .ldi => .ri

/-- The instructions. `a`, `b` are the register indexes of `op1`, `op2` (R100); `r` is that of a handler's `op1`. -/
inductive Instr where
  | nop
  | hlt
  | ret
  | push (r : Reg)
  | pop (r : Reg)
  | prn (r : Reg)
  | call (r : Reg)
  | jmp (r : Reg)
  | jeq (r : Reg)
  | jne (r : Reg)
  | not (a : Reg)
  | ldi (r : Reg) (v : Byte)
  | add (a b : Reg)
  | sub (a b : Reg)
  | mult (a b : Reg)
  | div (a b : Reg)
  | mod (a b : Reg)
  | cmp (a b : Reg)
  | and (a b : Reg)
  | or (a b : Reg)
  | xor (a b : Reg)
  | shl (a b : Reg)
  | shr (a b : Reg)
deriving DecidableEq, Repr

/-- The row of R66 an instruction belongs to. -/
def Instr.op : Instr → Op
  | .nop => .nop
  | .hlt => .hlt
  | .ret => .ret
  | .push _ => .push
  | .pop _ => .pop
  | .prn _ => .prn
  | .call _ => .call
  | .jmp _ => .jmp
  | .jeq _ => .jeq
  | .jne _ => .jne
  | .not _ => .not
  | .ldi _ _ => .ldi
  | .add _ _ => .add
  | .sub _ _ => .sub
  | .mult _ _ => .mult
  | .div _ _ => .div
  | .mod _ _ => .mod
  | .cmp _ _ => .cmp
  | .and _ _ => .and
  | .or _ _ => .or
  | .xor _ _ => .xor
  | .shl _ _ => .shl
  | .shr _ _ => .shr

/-- A register index as the operand byte that names it: the whole byte (R65). -/
def regByte (r : Reg) : Byte := BitVec.ofNat 8 r.val

/-- The operand bytes of an instruction, operand 1 first (R60). -/
def Instr.operandBytes : Instr → List Byte
  | .nop | .hlt | .ret => []
  | .push r | .pop r | .prn r | .call r | .jmp r | .jeq r | .jne r | .not r => [regByte r]
  | .ldi r v => [regByte r, v]
  | .add a b | .sub a b | .mult a b | .div a b | .mod a b | .cmp a b
  | .and a b | .or a b | .xor a b | .shl a b | .shr a b => [regByte a, regByte b]

/-- Why bytes are no instruction of this ISA (R68, R65). -/
inductive DecodeFault where
  /-- bit 5 clear and no dispatch row (R161) -/
  | unknownOpcode
  /-- bit 5 set and no ALU row (R162) -/
  | unknownAluOp
  /-- a declared register index greater than 7 (R163) -/
  | invalidRegisterIndex
deriving DecidableEq, Repr

end Sys2Proof
end

