-- ==== Sys2Proof/Machine/State.lean ====
section
/-! DEFINITION. The state of the CORE as plain data: the tuple (x[0..7], pc, FL, run, FAULT_CAUSE, FAULT_PC, FAULT_IR, Mem, out) of
10_state.md R24, its values after reset (R25), and the reasons a step can stop. -/

namespace Sys2Proof.Machine

/-- The run state (R20). -/
inductive RunState where
  | running
  | halted
  | faulted
deriving DecidableEq, Repr

/-- Memory as the cells that do not read as `Config.core.unlisted`, addresses strictly rising (Machine/Memory.lean: `Mem.wf`). -/
abbrev Mem := List Host.Cell

structure State where
  /-- x[0..7], R0 to R7 (R10); x[7] is the stack pointer (R11). -/
  regs : Vector Byte 8
  /-- The program counter (R14). -/
  pc : Addr
  /-- The flags register FL, a whole 8-bit register of which bits 2:0 carry L, G, E (R17). -/
  fl : Byte
  /-- The run state (R20). -/
  run : RunState
  /-- FAULT_CAUSE, 3 bits (R21). -/
  faultCause : BitVec 3
  /-- FAULT_PC (R21). -/
  faultPc : Addr
  /-- FAULT_IR (R21). -/
  faultIr : Byte
  /-- Mem[0..255] (R40). -/
  mem : Mem
  /-- The output trace, oldest value first (R23). -/
  out : List Byte
deriving DecidableEq, Repr

/-- The four synchronous faults of 60_exceptions.md R160. Taking one is a NEXT state (R165), not a stop of the model. -/
inductive FaultCause where
  | unknownOpcode
  | unknownAluOp
  | divideByZero
  | invalidRegisterIndex
deriving DecidableEq, Repr

/-- Why the model's step answers a fault: the run state has no step (40_engine.md R87). No instruction's meaning answers one. -/
inductive Fault where
  /-- Raised by `step` alone, when run = Halted: "A model gives these states no successor" (R87). Safe. -/
  | halted
  /-- Raised by `step` alone, when run = Faulted (R87, R166). Safe. -/
  | faulted
deriving DecidableEq, Repr

/-- Why the model refuses an instruction. -/
inductive Refusal where
  /-- Raised by an arm of `exec` whose instruction has no meaning; there is none in this model. Safe. -/
  | notModelled (mnemonic : String)
deriving DecidableEq, Repr

/-- What one step or one meaning answers. -/
abbrev Result := Host.Outcome State Fault Refusal

/-- The state right after reset over the memory contents `m` (R25; reset does not touch memory, R190). The values of x[0..6], FL and SP_INIT
are the spec's decisions D10 to D12, which R7 asks a reader to check (UNVERIFIED, unsafe: log entry 13). -/
def State.resetOver (m : Mem) : State :=
  { regs := #v[0x00, 0x00, 0x00, 0x00, 0x00, 0x00, 0x00, Config.core.spInit]
    pc := Config.core.resetPc
    fl := 0x00
    run := .running
    faultCause := 0
    faultPc := 0x00
    faultIr := 0x00
    mem := m
    out := [] }

/-- The machine right after reset with nothing in memory: every cell reads as R193's "0 elsewhere" (DESIGN CHOICE, unsafe: log entry 1). -/
def State.reset : State := State.resetOver []

end Sys2Proof.Machine
end

