-- ==== Sys2Proof/Machine/Memory.lean ====
section
/-! DEFINITION. The one address space: 256 byte cells (20_memory.md R40 to R43), held as a list of cells in one canonical form. -/

namespace Sys2Proof.Machine

/-- The cells of `m` lie at strictly rising addresses from `lo` up, below MEM_SIZE, and none holds what an unlisted cell reads as. -/
def Mem.wfFrom (lo : Nat) : Mem → Bool
  | [] => true
  | (k, v) :: m =>
    decide (lo ≤ k) && decide (k < Config.core.memSize) && decide (v ≠ Config.core.unlisted) && Mem.wfFrom (k + 1) m

/-- The canonical form: equal memories are equal lists. -/
def Mem.wf (m : Mem) : Bool := Mem.wfFrom 0 m

/-- The value of cell `k`: the one listed, else what an unlisted cell reads as (R42). -/
def Mem.get (m : Mem) (k : Nat) : Byte :=
  match m with
  | [] => Config.core.unlisted
  | (j, w) :: rest => if k = j then w else Mem.get rest k

/-- Memory with no entry for cell `k`. -/
def Mem.erase (m : Mem) (k : Nat) : Mem := m.filter fun c => c.1 != k

/-- Memory with an entry for cell `k`, before the entries of higher addresses. -/
def Mem.insert (m : Mem) (k : Nat) (v : Byte) : Mem :=
  match m with
  | [] => [(k, v)]
  | (j, w) :: rest => if k < j then (k, v) :: (j, w) :: rest else (j, w) :: Mem.insert rest k v

/-- Replace cell `k` and no other (R43), keeping the canonical form: a value an unlisted cell reads as is not listed. -/
def Mem.set (m : Mem) (k : Nat) (v : Byte) : Mem :=
  if v = Config.core.unlisted then m.erase k else (m.erase k).insert k v

/-- Memory whose `n` cells from `lo` on hold what `init` gives. -/
def Mem.fill (init : Addr → Byte) (lo : Nat) : Nat → Mem
  | 0 => []
  | n + 1 =>
    if init (BitVec.ofNat 8 lo) = Config.core.unlisted then Mem.fill init (lo + 1) n
    else (lo, init (BitVec.ofNat 8 lo)) :: Mem.fill init (lo + 1) n

/-- The memory that MEM_INIT describes (70_reset_and_hazards.md R193). -/
def Mem.ofInit (init : Addr → Byte) : Mem := Mem.fill init 0 Config.core.memSize

/-- The intended MEM_INIT of R193: byte `k` of the image at address `k`, 0 elsewhere. R193 says that an image longer than 256 bytes cannot be
loaded and leaves what a loader does with one outside the CORE; here its first 256 bytes are taken and the rest dropped (DESIGN CHOICE, unsafe:
log entry 15). -/
def imageInit (image : List Byte) (a : Addr) : Byte := image.getD a.toNat 0x00

end Sys2Proof.Machine
end

