-- ==== Sys2Proof/Machine/Ops.lean ====
section
/-! DEFINITION. The named operations over the state: the primitives of 00_scope.md R6 (x[i], MemRead, MemWrite, Out, raise), taking a fault
(60_exceptions.md R165), reset, the one way out of a fault (R166, R190), and the engine's end of a step (40_engine.md R84 to R86). -/

namespace Sys2Proof.Machine

/-- x[r] (R6). No register is hard-wired (R10). -/
def State.reg (s : State) (r : Reg) : Byte := s.regs[r.val]

/-- x[r] <- v (R6). -/
def State.setReg (s : State) (r : Reg) (v : Byte) : State := { s with regs := s.regs.set r.val v r.isLt }

/-- pc <- t (R6). -/
def State.setPc (s : State) (t : Addr) : State := { s with pc := t }

/-- FL <- v, the whole register (R18). -/
def State.setFl (s : State) (v : Byte) : State := { s with fl := v }

/-- run <- v (R20). -/
def State.setRun (s : State) (v : RunState) : State := { s with run := v }

/-- MemRead(a, 1): every address is valid and a read changes nothing (R41, R42). -/
def State.memRead (s : State) (a : Addr) : Byte := Mem.get s.mem a.toNat

/-- MemWrite(a, 1, v) (R43). -/
def State.memWrite (s : State) (a : Addr) (v : Byte) : State := { s with mem := Mem.set s.mem a.toNat v }

/-- Out(v): append to the output trace (R23, R31). -/
def State.emit (s : State) (v : Byte) : State := { s with out := s.out ++ [v] }

/-- The cause codes of R160. -/
def FaultCause.code : FaultCause → BitVec 3
  | .unknownOpcode => 1
  | .unknownAluOp => 2
  | .divideByZero => 3
  | .invalidRegisterIndex => 4

/-- The cause a rejected fetch raises (R161 to R163). -/
def causeOfDecode : DecodeFault → FaultCause
  | .unknownOpcode => .unknownOpcode
  | .unknownAluOp => .unknownAluOp
  | .invalidRegisterIndex => .invalidRegisterIndex

/-- Taking a fault (R165): the three fault registers and `run` are written, nothing else; `pc` still holds the address of the faulting
instruction, which is what FAULT_PC records. There is no vector and no handler. -/
def State.takeFault (s : State) (c : FaultCause) (ir : Byte) : State :=
  { s with run := .faulted, faultCause := c.code, faultPc := s.pc, faultIr := ir }

/-- Reset, in any run state (R190): every piece of the block's state takes its value of R25, the output trace is emptied, memory is not
touched. Nothing returns from a fault (R166): this is the only way out of Halted and Faulted. It is an event, not a step (log entry 6). -/
def State.applyReset (s : State) : State := State.resetOver s.mem

/-- The machine when the first step begins, for the memory contents MEM_INIT = `init` (R193, R194). -/
def State.boot (init : Addr → Byte) : State := State.resetOver (Mem.ofInit init)

/-- What an instruction's rule leaves to the engine (R84): the state it made, whether it wrote `pc` itself, whether it is HLT. -/
structure Executed where
  state : State
  override : Bool
  halt : Bool
deriving DecidableEq, Repr

/-- A rule that neither overrides `pc` nor halts (R84). -/
def Executed.plain (s : State) : Executed := { state := s, override := false, halt := false }

/-- A rule that has written `pc` itself (R84). -/
def Executed.jump (s : State) : Executed := { state := s, override := true, halt := false }

/-- HLT's rule (R84, R140). -/
def Executed.stop (s : State) : Executed := { state := s, override := false, halt := true }

/-- Advance PC (R85): unless the rule overrode it, pc <- (pc0 + 1 + n) mod 256, the dynamic signal deciding (C8). -/
def advancePc (pc0 : Addr) (n : Nat) (e : Executed) : State :=
  if e.override then e.state else e.state.setPc (pc0 + 1 + BitVec.ofNat 8 n)

/-- The end of a step: advance, then halt detection (R85, R86, R80 lines 5 and 6). -/
def endStep (pc0 : Addr) (n : Nat) (e : Executed) : State :=
  if e.halt then (advancePc pc0 n e).setRun .halted else advancePc pc0 n e

end Sys2Proof.Machine
end

