-- ==== Sys2Proof/Machine/Flags.lean ====
section
/-! DEFINITION. The flags register: its layout (10_state.md R17) and the one computation that writes it (41_alu.md R108). -/

namespace Sys2Proof.Machine

/-- FL.L = FL[2] (R17). -/
def flagL (fl : Byte) : Bool := fl.getLsbD 2

/-- FL.G = FL[1] (R17). -/
def flagG (fl : Byte) : Bool := fl.getLsbD 1

/-- FL.E = FL[0] (R17). -/
def flagE (fl : Byte) : Bool := fl.getLsbD 0

/-- The value CMP writes: equality first, then the unsigned order; bits 7:3 are 0 (R108). -/
def compareFlags (va vb : Byte) : Byte :=
  if va = vb then 0b00000001
  else if va.toNat < vb.toNat then 0b00000100
  else 0b00000010

end Sys2Proof.Machine
end

