-- ==== Sys2Proof/WellFormed.lean ====
section
/-! DEFINITION. When operand bytes fit a format: their number is the format's (30_encoding.md R60) and every byte the format declares a
register index is at most 7 (R65). LDI's literal is not checked (R69). -/

namespace Sys2Proof

/-- The check of R65 on one operand byte. -/
def isRegIndex (b : Byte) : Bool := b.toNat ≤ 7

/-- The operand bytes `bs` are as many as the format `f` has, and its register indexes are valid. -/
def operandsFit : Format → List Byte → Bool
  | .z, [] => true
  | .r, [r] => isRegIndex r
  | .rr, [a, b] => isRegIndex a && isRegIndex b
  | .ri, [r, _] => isRegIndex r
  | _, _ => false

/-- An instruction is well-formed when its operand bytes fit the format of its row. Every term of `Instr` is (Laws/PerInstr.lean):
`Reg` admits no other index. The check that can fail is `operandsFit`, on bytes not yet decoded. -/
def Instr.WellFormed (i : Instr) : Bool := operandsFit i.op.format i.operandBytes

end Sys2Proof
end

