-- ==== Sys2Proof/Decode.lean ====
section
/-! DEFINITION. The decoder, total on any bytes and rejecting by name, and the encoder, both written from the opcode map of
30_encoding.md (R61 to R69). -/

namespace Sys2Proof

/-- Bits 7:6 of an opcode byte: the operand count `n` (R62). -/
def operandCount (ir : Byte) : Nat := (ir.extractLsb' 6 2).toNat

/-- Bit 5: the ALU-flag bit (R63). -/
def aluFlag (ir : Byte) : Bool := ir.getLsbD 5

/-- Bit 4: the sets-PC-flag bit, a static class mark that no step uses (R64). -/
def spcFlag (ir : Byte) : Bool := ir.getLsbD 4

/-- Bits 3:0: the instruction identifier (R61). -/
def opId (ir : Byte) : BitVec 4 := ir.extractLsb' 0 4

/-- The twelve ALU rows of R66. -/
def aluTable : List (Byte × Op) :=
  [(0x69, .not), (0xA0, .add), (0xA1, .sub), (0xA2, .mult), (0xA3, .div), (0xA4, .mod),
   (0xA7, .cmp), (0xA8, .and), (0xAA, .or), (0xAB, .xor), (0xAC, .shl), (0xAD, .shr)]

/-- The eleven dispatch rows of R66. -/
def dispatchTable : List (Byte × Op) :=
  [(0x00, .nop), (0x01, .hlt), (0x11, .ret), (0x45, .push), (0x46, .pop), (0x47, .prn),
   (0x50, .call), (0x54, .jmp), (0x55, .jeq), (0x56, .jne), (0x82, .ldi)]

/-- A lookup by the full byte (R63, R66: mask 0xFF). -/
def lookupRow (table : List (Byte × Op)) (ir : Byte) : Option Op :=
  (table.find? fun row => row.1 == ir).map Prod.snd

/-- The ALU-flag bit selects the table, the full byte the row; a byte in neither is rejected by the table it was looked up in
(R63, R67, R68). -/
def decodeOpcode (ir : Byte) : Except DecodeFault Op :=
  if aluFlag ir then
    match lookupRow aluTable ir with
    | some op => .ok op
    | none => .error .unknownAluOp
  else
    match lookupRow dispatchTable ir with
    | some op => .ok op
    | none => .error .unknownOpcode

/-- A register-index operand byte: the whole byte, at most 7 (R65). -/
def decodeReg (b : Byte) : Except DecodeFault Reg :=
  if h : b.toNat < 8 then .ok ⟨b.toNat, h⟩ else .error .invalidRegisterIndex

/-- Format R: one register index. -/
def decodeR (mk : Reg → Instr) (op1 : Byte) : Except DecodeFault Instr :=
  match decodeReg op1 with
  | .ok r => .ok (mk r)
  | .error f => .error f

/-- Format RI: a register index and a literal that is never checked (R69). -/
def decodeRI (mk : Reg → Byte → Instr) (op1 op2 : Byte) : Except DecodeFault Instr :=
  match decodeReg op1 with
  | .ok r => .ok (mk r op2)
  | .error f => .error f

/-- Format RR: two register indexes, one fault if either or both are invalid (R65). -/
def decodeRR (mk : Reg → Reg → Instr) (op1 op2 : Byte) : Except DecodeFault Instr :=
  match decodeReg op1, decodeReg op2 with
  | .ok a, .ok b => .ok (mk a b)
  | .error f, _ => .error f
  | .ok _, .error f => .error f

/-- The operand bytes of a defined opcode, read by its format (R60, R65, R69, R82). A byte the format does not have is not looked at. -/
def decodeOperands (op : Op) (op1 op2 : Byte) : Except DecodeFault Instr :=
  match op with
  | .nop => .ok .nop
  | .hlt => .ok .hlt
  | .ret => .ok .ret
  | .push => decodeR .push op1
  | .pop => decodeR .pop op1
  | .prn => decodeR .prn op1
  | .call => decodeR .call op1
  | .jmp => decodeR .jmp op1
  | .jeq => decodeR .jeq op1
  | .jne => decodeR .jne op1
  | .not => decodeR .not op1
  | .ldi => decodeRI .ldi op1 op2
  | .add => decodeRR .add op1 op2
  | .sub => decodeRR .sub op1 op2
  | .mult => decodeRR .mult op1 op2
  | .div => decodeRR .div op1 op2
  | .mod => decodeRR .mod op1 op2
  | .cmp => decodeRR .cmp op1 op2
  | .and => decodeRR .and op1 op2
  | .or => decodeRR .or op1 op2
  | .xor => decodeRR .xor op1 op2
  | .shl => decodeRR .shl op1 op2
  | .shr => decodeRR .shr op1 op2

/-- The decoder, on an opcode byte and the two bytes after it (R67, R80): the opcode is judged first, then the register indexes its
format declares; bytes past the instruction's length are ignored (log entry 3: reading them is not observable, R81). -/
def decode (ir op1 op2 : Byte) : Except DecodeFault Instr :=
  match decodeOpcode ir with
  | .ok op => decodeOperands op op1 op2
  | .error f => .error f

/-- The hex column of R66. -/
def opcodeOf : Op → Byte
  | .nop => 0x00
  | .hlt => 0x01
  | .ret => 0x11
  | .push => 0x45
  | .pop => 0x46
  | .prn => 0x47
  | .call => 0x50
  | .jmp => 0x54
  | .jeq => 0x55
  | .jne => 0x56
  | .not => 0x69
  | .ldi => 0x82
  | .add => 0xA0
  | .sub => 0xA1
  | .mult => 0xA2
  | .div => 0xA3
  | .mod => 0xA4
  | .cmp => 0xA7
  | .and => 0xA8
  | .or => 0xAA
  | .xor => 0xAB
  | .shl => 0xAC
  | .shr => 0xAD

/-- The encoder: the opcode byte, then the operand bytes at ascending addresses (R60, R47). -/
def encode (i : Instr) : List Byte := opcodeOf i.op :: i.operandBytes

/-- Byte `k` of an instruction whose bits are `w`, numbered as spec/opcode_table.json numbers them; bits from `nbits` up are 0. -/
def tableByte (nbits w k : Nat) : Byte := BitVec.ofNat 8 (w % 2 ^ nbits / 2 ^ (8 * k))

/-- What the decoder reads from the bits `w` of an instruction laid out first byte lowest. -/
def decodeTableWord (nbits w : Nat) : Option Instr :=
  match decode (tableByte nbits w 0) (tableByte nbits w 1) (tableByte nbits w 2) with
  | .ok i => some i
  | .error _ => none

end Sys2Proof
end

