-- ==== Sys2Proof/Machine/Operands.lean ====
section
/-! DEFINITION. Where operands come from: the bytes at and after `pc` (40_engine.md R81), and the one data addressing mode, register 7
indirect with pre-decrement on write and post-increment on read (42_handlers.md R141). -/

namespace Sys2Proof.Machine

/-- The opcode byte `ir` (R81). -/
def State.opcodeByte (s : State) : Byte := s.memRead s.pc

/-- `op1` (R81), its address modulo 256 (10_state.md R16). -/
def State.operand1 (s : State) : Byte := s.memRead (s.pc + 1)

/-- `op2` (R81). -/
def State.operand2 (s : State) : Byte := s.memRead (s.pc + 2)

/-- Fetch and decode the instruction at `pc` (R81, R82); fetch itself cannot fault. -/
def State.fetch (s : State) : Except DecodeFault Instr := decode s.opcodeByte s.operand1 s.operand2

/-- The index of the stack pointer (10_state.md R11). -/
def sp : Reg := Fin.ofNat 8 Config.core.spIndex

/-- x[7] <- (x[7] - 1) mod 256 (R141). -/
def State.spDec (s : State) : State := s.setReg sp (s.reg sp - 1)

/-- x[7] <- (x[7] + 1) mod 256, x[7] read as the state now holds it (R141, R133). -/
def State.spInc (s : State) : State := s.setReg sp (s.reg sp + 1)

/-- A push (R141): decrement, then write at the new top. `v` is read after the decrement (R13, R196). -/
def State.pushWith (s : State) (v : State → Byte) : State := s.spDec.memWrite (s.spDec.reg sp) (v s.spDec)

/-- The byte a pop reads (R141). -/
def State.top (s : State) : Byte := s.memRead (s.reg sp)

/-- The engine's end of the step of an instruction of row `op` at the state `s` in which it began (R85, R90: `n` is the opcode's own field). -/
def complete (op : Op) (s : State) (e : Executed) : Result :=
  .next (endStep s.pc (operandCount (opcodeOf op)) e)

/-- An instruction's rule that raises a fault: nothing but the fault registers and `run` is written (R165). -/
def raise (op : Op) (s : State) (c : FaultCause) : Result := .next (s.takeFault c (opcodeOf op))

end Sys2Proof.Machine
end

