-- ==== Sys2Proof/Machine/Alu.lean ====
section
/-! DEFINITION. The ALU and its twelve instructions (41_alu.md). The unit is a function of the source values and the destination index (R103);
every result is the mathematical one reduced modulo 256 (R102). -/

namespace Sys2Proof.Machine

/-- What the ALU puts out (R103): a register write, a flags write, or the fault DivideByZero. -/
inductive AluOutput where
  | register (d : Reg) (v : Byte)
  | flags (fl : Byte)
  | divideByZero
deriving DecidableEq, Repr

/-- The one width rule: a mathematical result modulo 256 (R102). -/
def wrap (n : Int) : Byte := BitVec.ofInt 8 n

/-- An unsigned value as the mathematical integer it stands for (R6). -/
def val (v : Byte) : Int := (v.toNat : Int)

/-- R104. -/
def aluAdd (va vb : Byte) (d : Reg) : AluOutput := .register d (wrap (val va + val vb))

/-- R105. -/
def aluSub (va vb : Byte) (d : Reg) : AluOutput := .register d (wrap (val va - val vb))

/-- R106. -/
def aluMult (va vb : Byte) (d : Reg) : AluOutput := .register d (wrap (val va * val vb))

/-- R107: the floor of the quotient of two unsigned values. -/
def aluDiv (va vb : Byte) (d : Reg) : AluOutput :=
  if vb = 0 then .divideByZero else .register d (wrap (val va / val vb))

/-- R114: the remainder in 0 .. vb - 1. -/
def aluMod (va vb : Byte) (d : Reg) : AluOutput :=
  if vb = 0 then .divideByZero else .register d (wrap (val va % val vb))

/-- R108. -/
def aluCmp (va vb : Byte) : AluOutput := .flags (compareFlags va vb)

/-- R109. -/
def aluAnd (va vb : Byte) (d : Reg) : AluOutput := .register d (va &&& vb)

/-- R110. -/
def aluOr (va vb : Byte) (d : Reg) : AluOutput := .register d (va ||| vb)

/-- R111. -/
def aluXor (va vb : Byte) (d : Reg) : AluOutput := .register d (va ^^^ vb)

/-- R112: the count is the whole value of vb, not masked. -/
def aluShl (va vb : Byte) (d : Reg) : AluOutput := .register d (wrap (val va * 2 ^ vb.toNat))

/-- R113: logical, the whole count. -/
def aluShr (va vb : Byte) (d : Reg) : AluOutput := .register d (wrap (val va / 2 ^ vb.toNat))

/-- R115: there is no second source. -/
def aluNot (va : Byte) (d : Reg) : AluOutput := .register d (~~~va)

/-- The ALU's output applied (R83, R84: no ALU instruction overrides `pc` or halts) or its fault taken before any write (R164). -/
def aluFinish (op : Op) (s : State) : AluOutput → Result
  | .register d v => complete op s (.plain (s.setReg d v))
  | .flags fl => complete op s (.plain (s.setFl fl))
  | .divideByZero => raise op s .divideByZero

/-- ADD (R104). -/
def execAdd (a b : Reg) (s : State) : Result := aluFinish .add s (aluAdd (s.reg a) (s.reg b) a)

/-- SUB (R105). -/
def execSub (a b : Reg) (s : State) : Result := aluFinish .sub s (aluSub (s.reg a) (s.reg b) a)

/-- MULT (R106). -/
def execMult (a b : Reg) (s : State) : Result := aluFinish .mult s (aluMult (s.reg a) (s.reg b) a)

/-- DIV (R107): DivideByZero when x[b] = 0. -/
def execDiv (a b : Reg) (s : State) : Result := aluFinish .div s (aluDiv (s.reg a) (s.reg b) a)

/-- MOD (R114): DivideByZero when x[b] = 0. -/
def execMod (a b : Reg) (s : State) : Result := aluFinish .mod s (aluMod (s.reg a) (s.reg b) a)

/-- CMP (R108). -/
def execCmp (a b : Reg) (s : State) : Result := aluFinish .cmp s (aluCmp (s.reg a) (s.reg b))

/-- AND (R109). -/
def execAnd (a b : Reg) (s : State) : Result := aluFinish .and s (aluAnd (s.reg a) (s.reg b) a)

/-- OR (R110). -/
def execOr (a b : Reg) (s : State) : Result := aluFinish .or s (aluOr (s.reg a) (s.reg b) a)

/-- XOR (R111). -/
def execXor (a b : Reg) (s : State) : Result := aluFinish .xor s (aluXor (s.reg a) (s.reg b) a)

/-- SHL (R112). -/
def execShl (a b : Reg) (s : State) : Result := aluFinish .shl s (aluShl (s.reg a) (s.reg b) a)

/-- SHR (R113). -/
def execShr (a b : Reg) (s : State) : Result := aluFinish .shr s (aluShr (s.reg a) (s.reg b) a)

/-- NOT (R115). -/
def execNot (a : Reg) (s : State) : Result := aluFinish .not s (aluNot (s.reg a) a)

end Sys2Proof.Machine
end

