-- ==== Sys2Proof/Machine/Handlers.lean ====
section
/-! DEFINITION. The eleven dispatch-table instructions (42_handlers.md R130 to R140). None raises a fault of its own and none writes FL. -/

namespace Sys2Proof.Machine

/-- LDI (R130): x[r] <- op2, as it stands. -/
def execLdi (r : Reg) (v : Byte) (s : State) : Result := complete .ldi s (.plain (s.setReg r v))

/-- PRN (R131): Out(x[r]). -/
def execPrn (r : Reg) (s : State) : Result := complete .prn s (.plain (s.emit (s.reg r)))

/-- PUSH (R132): x[r] is read after the decrement. -/
def execPush (r : Reg) (s : State) : Result := complete .push s (.plain (s.pushWith fun t => t.reg r))

/-- POP (R133): x[7] is read after the write of x[r]. -/
def execPop (r : Reg) (s : State) : Result := complete .pop s (.plain (s.setReg r s.top).spInc)

/-- CALL (R134): push (pc + 2) mod 256, then pc <- x[r], read after the push. -/
def callPush (s : State) : State := s.pushWith fun t => t.pc + 2

/-- CALL (R134). -/
def execCall (r : Reg) (s : State) : Result := complete .call s (.jump ((callPush s).setPc ((callPush s).reg r)))

/-- RET (R135): pc <- the popped byte. -/
def execRet (s : State) : Result := complete .ret s (.jump (s.setPc s.top).spInc)

/-- A jump to x[r] (R136). -/
def jumpTo (r : Reg) (s : State) : Executed := .jump (s.setPc (s.reg r))

/-- JMP (R136). -/
def execJmp (r : Reg) (s : State) : Result := complete .jmp s (jumpTo r s)

/-- JEQ (R137): as JMP when FL.E = 1, else no override. -/
def execJeq (r : Reg) (s : State) : Result :=
  complete .jeq s (if flagE s.fl then jumpTo r s else .plain s)

/-- JNE (R138): as JMP when FL.E = 0, else no override. -/
def execJne (r : Reg) (s : State) : Result :=
  complete .jne s (if flagE s.fl then .plain s else jumpTo r s)

/-- NOP (R139). -/
def execNop (s : State) : Result := complete .nop s (.plain s)

/-- HLT (R140): the halt signal; the engine advances `pc`, then sets `run`. -/
def execHlt (s : State) : Result := complete .hlt s (.stop s)

end Sys2Proof.Machine
end

