-- ==== Sys2Proof/Machine/Step.lean ====
section
/-! DEFINITION. One step of the machine: one whole instruction (40_engine.md R80), and the placing of an instruction where the step fetches. -/

namespace Sys2Proof.Machine

/-- One step (R80). Halted and Faulted have no step (R87): the model answers a fault named after the run state. While Running, the
instruction at `pc` is fetched and decoded; what the decoder rejects takes the fault it names (R165), a NEXT state. -/
def step (s : State) : Host.Outcome State Fault Refusal :=
  match s.run with
  | .halted => .fault .halted
  | .faulted => .fault .faulted
  | .running =>
    match s.fetch with
    | .ok i => exec i s
    | .error f => .next (s.takeFault (causeOfDecode f) s.opcodeByte)

/-- `s` with the instruction whose bits are `w` stored at `pc` (three bytes, the longest instruction) and the machine Running, so that
the very next step fetches it (log entry 7). -/
def State.withFetchWord (s : State) (nbits w : Nat) : State :=
  (((s.memWrite s.pc (tableByte nbits w 0)).memWrite (s.pc + 1) (tableByte nbits w 1)).memWrite
    (s.pc + 2) (tableByte nbits w 2)).setRun .running

end Sys2Proof.Machine
end

