-- ==== Sys2Proof/Machine/Ports.lean ====
section
/-! DEFINITION. The ports of the block as views on the state (10_state.md R30 to R32): the status outputs, the accesses a step makes on the
memory port, in order (20_memory.md R45, R46), and the value a step drives on the output port. -/

namespace Sys2Proof.Machine

/-- Status output `halted`: 1 exactly when run = Halted (R32). -/
def State.haltedOut (s : State) : Bool := decide (s.run = .halted)

/-- Status output `faulted`: 1 exactly when run = Faulted (R32). -/
def State.faultedOut (s : State) : Bool := decide (s.run = .faulted)

/-- One access on the memory port: `mem_we = 0` or `mem_we = 1` (R30). -/
inductive Access where
  | read (a : Addr)
  | write (a : Addr) (v : Byte)
deriving DecidableEq, Repr

/-- The fetch accesses of an instruction with operand count `n`: opcode, `op1` if n >= 1, `op2` if n = 2 (R46). -/
def fetchReads (pc : Addr) (n : Nat) : List Access :=
  .read pc :: ((if 1 ≤ n then [.read (pc + 1)] else []) ++ (if n = 2 then [.read (pc + 2)] else []))

/-- The data accesses of an instruction at the state in which it executes (R45). -/
def dataAccesses (i : Instr) (s : State) : List Access :=
  match i with
  | .push r => [.write (s.spDec.reg sp) (s.spDec.reg r)]
  | .call _ => [.write (s.spDec.reg sp) (s.pc + 2)]
  | .pop _ => [.read (s.reg sp)]
  | .ret => [.read (s.reg sp)]
  | .nop | .hlt | .prn _ | .jmp _ | .jeq _ | .jne _ | .ldi _ _ => []
  | .not _ | .add _ _ | .sub _ _ | .mult _ _ | .div _ _ | .mod _ _ | .cmp _ _ => []
  | .and _ _ | .or _ _ | .xor _ _ | .shl _ _ | .shr _ _ => []

/-- What the fetch of a Running machine reads: an undefined opcode is judged before its operand bytes are read (R80, R68); for a defined
one the operand bytes are read, then judged. -/
def fetchAccesses (s : State) : List Access :=
  match decodeOpcode s.opcodeByte with
  | .ok _ => fetchReads s.pc (operandCount s.opcodeByte)
  | .error _ => [.read s.pc]

/-- The accesses of the step that begins in `s`, in order (R46); a machine that is not Running makes none (R87), and an instruction that
faults makes the fetch accesses only. -/
def stepAccesses (s : State) : List Access :=
  match s.run with
  | .halted | .faulted => []
  | .running =>
    match s.fetch with
    | .ok i => fetchAccesses s ++ dataAccesses i s
    | .error _ => fetchAccesses s

/-- The memory after an access on the port (R30, R43). -/
def Access.apply (m : Mem) : Access → Mem
  | .read _ => m
  | .write a v => Mem.set m a.toNat v

/-- The value the output port carries during an instruction, if it fires: PRN alone drives it (R31). -/
def outputPulse (i : Instr) (s : State) : Option Byte :=
  match i with
  | .prn r => some (s.reg r)
  | .nop | .hlt | .ret | .push _ | .pop _ | .call _ | .jmp _ | .jeq _ | .jne _ | .ldi _ _ => none
  | .not _ | .add _ _ | .sub _ _ | .mult _ _ | .div _ _ | .mod _ _ | .cmp _ _ => none
  | .and _ _ | .or _ _ | .xor _ _ | .shl _ _ | .shr _ _ => none

end Sys2Proof.Machine
end

