-- ==== Sys2Proof/Safety.lean ====
section
/-! DEFINITION. The words claims are stated in: what an instruction leaves unchanged, what fault is due, the invariant of the machine, the
preconditions 60_exceptions.md R174 leaves to programs, and what a program can see of the state (10_state.md R22). The tables here are
written out from the spec's own tables, not from the model's decoder. -/

namespace Sys2Proof.Machine

/-! ## What is left unchanged -/

/-- Every general register but those of `ds` holds what it held. -/
def SameRegsExcept (ds : List Reg) (s t : State) : Prop := ∀ r, r ∉ ds → t.reg r = s.reg r

/-- Every cell of memory reads as before. -/
def SameMemory (s t : State) : Prop := ∀ a, t.memRead a = s.memRead a

/-- Every cell of memory but `x` reads as before. -/
def SameMemoryExcept (x : Addr) (s t : State) : Prop := ∀ a, a ≠ x → t.memRead a = s.memRead a

/-- The three fault registers hold what they held. -/
def SameFaultRegs (s t : State) : Prop :=
  t.faultCause = s.faultCause ∧ t.faultPc = s.faultPc ∧ t.faultIr = s.faultIr

/-- The run state and the three fault registers hold what they held (R20, R21). -/
def SameSystem (s t : State) : Prop := t.run = s.run ∧ SameFaultRegs s t

/-- `pc` has moved on by `n` bytes, modulo 256 (R15, R16). -/
def PcAdvanced (n : Nat) (s t : State) : Prop := t.pc.toNat = (s.pc.toNat + n) % 256

/-! ## Encodings -/

/-- `i` is encoded by exactly these bytes, and any bytes that begin with them decode to `i`. -/
def HasEncoding (i : Instr) (bytes : List Byte) : Prop :=
  encode i = bytes ∧ ∀ ir op1 op2, bytes <+: [ir, op1, op2] → decode ir op1 op2 = .ok i

/-- The opcodes of each format (30_encoding.md R60, R66). -/
def opcodesZ : List Byte := [0x00, 0x01, 0x11]
/-- Format R of R60. -/
def opcodesR : List Byte := [0x45, 0x46, 0x47, 0x50, 0x54, 0x55, 0x56, 0x69]
/-- Format RI of R60. -/
def opcodesRI : List Byte := [0x82]
/-- Format RR of R60. -/
def opcodesRR : List Byte := [0xA0, 0xA1, 0xA2, 0xA3, 0xA4, 0xA7, 0xA8, 0xAA, 0xAB, 0xAC, 0xAD]

/-- The 23 defined opcodes. -/
def definedOpcodes : List Byte := opcodesZ ++ opcodesR ++ opcodesRI ++ opcodesRR

/-- Some operand byte that the format of `ir` declares a register index is greater than 7 (R65). -/
def badIndex (ir op1 op2 : Byte) : Bool :=
  ((ir ∈ opcodesR ∨ ir ∈ opcodesRI ∨ ir ∈ opcodesRR) ∧ 7 < op1.toNat) ∨ (ir ∈ opcodesRR ∧ 7 < op2.toNat)

/-! ## Faults -/

/-- DIV or MOD with a divisor register that holds 0 (R164); the register is the one `op2` names. -/
def zeroDivisor (s : State) : Bool :=
  (s.opcodeByte = 0xA3 ∨ s.opcodeByte = 0xA4) ∧ s.reg (Fin.ofNat 8 s.operand2.toNat) = 0

/-- The cause code of the fault the instruction at `pc` raises, 0 if it raises none: the codes of R160 in the order of R167. -/
def faultDue (s : State) : Nat :=
  if s.opcodeByte ∉ definedOpcodes then (if s.opcodeByte.getLsbD 5 then 2 else 1)
  else if badIndex s.opcodeByte s.operand1 s.operand2 then 4
  else if zeroDivisor s then 3
  else 0

/-- `t` is `s` with the fault `cause` of the instruction at pc with opcode byte `ir` taken, and nothing else changed (R165). -/
def TookFault (cause : Nat) (ir : Byte) (s t : State) : Prop :=
  t.run = .faulted ∧ t.faultCause.toNat = cause ∧ t.faultPc = s.pc ∧ t.faultIr = ir ∧
  SameRegsExcept [] s t ∧ t.pc = s.pc ∧ t.fl = s.fl ∧ SameMemory s t ∧ t.out = s.out

/-! ## The invariant -/

/-- The four legal values of FL (R17). -/
def FlLegal (fl : Byte) : Prop := fl = 0b000 ∨ fl = 0b001 ∨ fl = 0b010 ∨ fl = 0b100

/-- The fault registers against the run state (R21, R165). While the machine has not faulted they are 0. In Faulted they name the address `pc`
still holds, the opcode byte still found there, and the cause that the state, unchanged by the fault, still shows. -/
def FaultRegsAgree (s : State) : Prop :=
  if s.run = .faulted then
    s.faultPc = s.pc ∧ s.faultIr = s.opcodeByte ∧ s.faultCause.toNat = faultDue s ∧ faultDue s ≠ 0
  else s.faultCause = 0 ∧ s.faultPc = 0 ∧ s.faultIr = 0

/-- The invariant of the machine: memory in canonical form, a legal FL, fault registers that agree with the run state. -/
def State.Inv (s : State) : Prop := Mem.wf s.mem = true ∧ FlLegal s.fl ∧ FaultRegsAgree s

/-! ## Programs -/

/-- A state no fault has ended (R89: the normal end is Halted). -/
def State.Safe (s : State) : Prop := s.run ≠ .faulted

/-- At least one byte is pushed: the precondition U1 asks of POP and RET. -/
def StackNonempty (s : State) : Prop := (s.reg 7).toNat < Config.core.spInit.toNat

/-- The next push lands above a program of `p` bytes at addresses 0 .. p - 1 (R197). -/
def StackAbove (p : Nat) (s : State) : Prop := p < (s.reg 7).toNat

/-- Two states that a program cannot tell apart: the same registers, `pc`, FL.E, memory and run state (R22). -/
def SameProgramView (s t : State) : Prop :=
  SameRegsExcept [] s t ∧ t.pc = s.pc ∧ flagE t.fl = flagE s.fl ∧ SameMemory s t ∧ t.run = s.run

/-! ## The spec's tables over all instructions -/

/-- "registers written" (R12). -/
def writtenRegs : Instr → List Reg
  | .add a _ | .sub a _ | .mult a _ | .div a _ | .mod a _ | .and a _ | .or a _ | .xor a _ | .shl a _ | .shr a _ => [a]
  | .not a => [a]
  | .ldi r _ => [r]
  | .push _ | .call _ | .ret => [7]
  | .pop r => [r, 7]
  | .cmp _ _ | .prn _ | .jmp _ | .jeq _ | .jne _ | .nop | .hlt => []

/-- "registers read" (R12): JEQ and JNE read x[r] when the branch is taken, nothing otherwise. -/
def readRegs (fl : Byte) : Instr → List Reg
  | .add a b | .sub a b | .mult a b | .div a b | .mod a b | .and a b | .or a b | .xor a b | .shl a b | .shr a b => [a, b]
  | .cmp a b => [a, b]
  | .not a => [a]
  | .prn r | .jmp r => [r]
  | .push r | .call r => [7, r]
  | .pop _ | .ret => [7]
  | .jeq r => if fl.getLsbD 0 then [r] else []
  | .jne r => if fl.getLsbD 0 then [] else [r]
  | .ldi _ _ | .nop | .hlt => []

/-- How each instruction leaves `pc` (R15); CALL with r = 7 as R134 says. -/
def pcAfter (i : Instr) (s : State) : Nat :=
  match i with
  | .nop | .hlt => (s.pc.toNat + 1) % 256
  | .not _ | .prn _ | .push _ | .pop _ => (s.pc.toNat + 2) % 256
  | .add _ _ | .sub _ _ | .mult _ _ | .cmp _ _ | .and _ _ | .or _ _ | .xor _ _ | .shl _ _ | .shr _ _ | .ldi _ _ =>
    (s.pc.toNat + 3) % 256
  | .div _ b | .mod _ b => if s.reg b = 0 then s.pc.toNat else (s.pc.toNat + 3) % 256
  | .jmp r => (s.reg r).toNat
  | .call r => if r = 7 then ((s.reg 7).toNat + 255) % 256 else (s.reg r).toNat
  | .ret => (s.memRead (s.reg 7)).toNat
  | .jeq r => if s.fl.getLsbD 0 then (s.reg r).toNat else (s.pc.toNat + 2) % 256
  | .jne r => if s.fl.getLsbD 0 then (s.pc.toNat + 2) % 256 else (s.reg r).toNat

/-- The number of memory accesses of an instruction (70_reset_and_hazards.md R199). -/
def accessCount : Instr → Nat
  | .nop | .hlt => 1
  | .ret | .prn _ | .jmp _ | .jeq _ | .jne _ | .not _ => 2
  | .push _ | .pop _ | .call _ | .ldi _ _ => 3
  | .add _ _ | .sub _ _ | .mult _ _ | .div _ _ | .mod _ _ | .cmp _ _ => 3
  | .and _ _ | .or _ _ | .xor _ _ | .shl _ _ | .shr _ _ => 3

/-- An instruction that writes one register `d` with a value of which `P` holds, advances `pc` by `n`, and changes nothing else. -/
def CompletesWriting (i : Instr) (d : Reg) (n : Nat) (P : Byte → Prop) (s : State) : Prop :=
  ∃ t, exec i s = .next t ∧ P (t.reg d) ∧ SameRegsExcept [d] s t ∧ PcAdvanced n s t ∧ t.fl = s.fl ∧
    SameMemory s t ∧ t.out = s.out ∧ SameSystem s t

/-- An instruction that writes no register and no memory, and of the rest only what `P` says of `pc`, FL, `run` and `out`. -/
def CompletesKeeping (i : Instr) (P : State → Prop) (s : State) : Prop :=
  ∃ t, exec i s = .next t ∧ P t ∧ SameRegsExcept [] s t ∧ SameMemory s t ∧ SameFaultRegs s t

end Sys2Proof.Machine
end

