-- ==== Sys2Proof/Certificates/Slice0/Obligations.lean ====
section
/-! DEFINITION. The statements about the model, for the provers. Each docstring names the rule of the spec it formalises; the witnesses of the
hypotheses are in Sys2Proof/Tests/Slice0.lean. -/

open Sys2Proof Sys2Proof.Machine

/-! ## Encoding and decoding -/

/-- Words written out bit by bit from R66 decode to the instructions they stand for, the bytes past their length fixed at one value each
(`DecodeInvertsEncode` is about every value). -/
def Obligations.SpecWordsDecode : Prop :=
  decode 0b00000000 0xFF 0xFF = .ok .nop ∧
  decode 0b00000001 0xFF 0xFF = .ok .hlt ∧
  decode 0b00010001 0xFF 0xFF = .ok .ret ∧
  decode 0b01000101 0b00000010 0xFF = .ok (.push 2) ∧
  decode 0b01010000 0b00000001 0xFF = .ok (.call 1) ∧
  decode 0b01101001 0b00000011 0x09 = .ok (.not 3) ∧
  decode 0b10000010 0b00000011 0b11111111 = .ok (.ldi 3 0xFF) ∧
  decode 0b10100001 0b00000001 0b00000010 = .ok (.sub 1 2) ∧
  decode 0b10101101 0b00000111 0b00000000 = .ok (.shr 7 0)

/-- R66, R67: any bytes that begin with the encoding of an instruction decode to it, every operand at every value. -/
def Obligations.DecodeInvertsEncode : Prop :=
  ∀ (i : Instr) (ir op1 op2 : Byte), encode i <+: [ir, op1, op2] → decode ir op1 op2 = .ok i

/-- R67: bytes that decode to an instruction begin with its encoding, whose length is 1 + n, n the opcode's operand-count field (R60, R62). -/
def Obligations.DecodedBytesAreTheEncoding : Prop :=
  ∀ (i : Instr) (ir op1 op2 : Byte), decode ir op1 op2 = .ok i →
    encode i <+: [ir, op1, op2] ∧ (encode i).length = 1 + operandCount ir ∧ i.op.format = match operandCount ir with
      | 0 => .z
      | 1 => .r
      | _ => if ir = 0x82 then .ri else .rr

/-- R68: which fault an undefined opcode raises, by the ranges the rule lists, whatever bytes follow; and their counts, 116 and 117. -/
def Obligations.UndefinedOpcodesByRange : Prop :=
  (∀ ir op1 op2 : Byte, decode ir op1 op2 = .error .unknownAluOp ↔
    (0x20 ≤ ir.toNat ∧ ir.toNat ≤ 0x3F) ∨ (0x60 ≤ ir.toNat ∧ ir.toNat ≤ 0x7F ∧ ir ≠ 0x69) ∨
    (0xA0 ≤ ir.toNat ∧ ir.toNat ≤ 0xBF ∧ ir ∉ opcodesRR) ∨ 0xE0 ≤ ir.toNat) ∧
  (∀ ir op1 op2 : Byte, decode ir op1 op2 = .error .unknownOpcode ↔
    ir.getLsbD 5 = false ∧
      ir ∉ ([0x00, 0x01, 0x11, 0x45, 0x46, 0x47, 0x50, 0x54, 0x55, 0x56, 0x82] : List Byte)) ∧
  ((List.range 256).countP fun n => decide (decodeOpcode (BitVec.ofNat 8 n) = .error .unknownAluOp)) = 116 ∧
  ((List.range 256).countP fun n => decide (decodeOpcode (BitVec.ofNat 8 n) = .error .unknownOpcode)) = 117

/-- R65: the decoder rejects exactly the defined opcodes with a declared register index greater than 7; a byte the format does not have is
not checked, and LDI's literal neither (R69). -/
def Obligations.RegisterIndexCheckedByDecoder : Prop :=
  ∀ ir op1 op2 : Byte, decode ir op1 op2 = .error .invalidRegisterIndex ↔ badIndex ir op1 op2 = true

/-- R70: of every instruction's opcode, bits 7:6 are its number of operand bytes, bit 5 is set for exactly the ALU instructions, bit 4 for exactly
CALL, RET, JMP, JEQ and JNE; and the 23 values are pairwise distinct. -/
def Obligations.OpcodeFieldsAgreeWithTheIsa : Prop :=
  (∀ i : Instr, operandCount (opcodeOf i.op) = i.operandBytes.length) ∧
  (∀ i : Instr, aluFlag (opcodeOf i.op) = true ↔
    i.op ∈ ([.add, .sub, .mult, .div, .cmp, .and, .or, .xor, .shl, .shr, .mod, .not] : List Op)) ∧
  (∀ i : Instr, spcFlag (opcodeOf i.op) = true ↔ i.op ∈ ([.call, .ret, .jmp, .jeq, .jne] : List Op)) ∧
  (∀ p q : Op, opcodeOf p = opcodeOf q → p = q)

/-! ## The step -/

/-- R80: when the bytes at pc, pc + 1 and pc + 2 (modulo 256) decode to an instruction, the step of a Running machine is that instruction's. -/
def Obligations.StepRunsDecodedInstruction : Prop :=
  ∀ (s : State) (i : Instr), s.run = .running →
    decode (s.memRead s.pc) (s.memRead (s.pc + 1)) (s.memRead (s.pc + 2)) = .ok i → step s = exec i s

/-- R87: Halted and Faulted have no step. -/
def Obligations.HaltedAndFaultedHaveNoStep : Prop :=
  ∀ s : State, (s.run = .halted → step s = .fault .halted) ∧ (s.run = .faulted → step s = .fault .faulted)

/-- R200: while Running a step is always enabled and never stops or refuses. -/
def Obligations.RunningStepIsAlwaysEnabled : Prop :=
  ∀ s : State, s.run = .running ↔ ∃ t, step s = .next t

/-- R160, R165, R167: the step of a Running machine takes the fault that is due, with exactly the effects of R165, and no fault if none is due. -/
def Obligations.FaultsByPriorityAndPrecise : Prop :=
  ∀ s : State, s.run = .running → ∃ t, step s = .next t ∧
    (if faultDue s = 0 then t.run ≠ .faulted ∧ SameFaultRegs s t else TookFault (faultDue s) s.opcodeByte s t)

/-- R20: the transitions of run. A step begins in Running only; it ends in Halted exactly for the opcode HLT, in Faulted exactly when a fault is
due, and in Running otherwise. -/
def Obligations.RunStateTransitions : Prop :=
  ∀ s t : State, step s = .next t →
    s.run = .running ∧ (t.run = .halted ↔ s.opcodeByte = 0x01) ∧ (t.run = .faulted ↔ faultDue s ≠ 0)

/-- R15: every instruction completes and leaves pc as the table says; a step that faults at decode leaves pc unchanged, like one that faults in
execution (the DIV and MOD rows of the table). -/
def Obligations.PcAfterEveryInstruction : Prop :=
  (∀ (i : Instr) (s : State), ∃ t, exec i s = .next t ∧ t.pc.toNat = pcAfter i s) ∧
  (∀ s t : State, step s = .next t →
    (∀ i, s.fetch = .ok i → t.pc.toNat = pcAfter i s) ∧ (∀ f, s.fetch = .error f → t.pc = s.pc))

/-- R12: an instruction writes no register but those its row names, and a register its row does not name as read has no influence: with another
value in it, everything else comes out the same. -/
def Obligations.RegistersReadAndWritten : Prop :=
  ∀ (i : Instr) (s : State), ∃ t, exec i s = .next t ∧ SameRegsExcept (writtenRegs i) s t ∧
    ∀ (q : Reg) (v : Byte), q ∉ readRegs s.fl i → ∃ u, exec i (s.setReg q v) = .next u ∧
      SameRegsExcept [q] t u ∧ (q ∈ writtenRegs i → u.reg q = t.reg q) ∧ u.pc = t.pc ∧ u.fl = t.fl ∧
      SameMemory t u ∧ u.out = t.out ∧ SameSystem t u

/-- R18: FL is written by CMP, the whole register, and by nothing else; JEQ and JNE alone read it, and only FL.E: with any other value in FL that
has the same E, and for the other instructions with any value at all, everything comes out the same but FL itself, which CMP replaces and
the others keep. -/
def Obligations.FlagsReadAndWritten : Prop :=
  ∀ (i : Instr) (s : State), ∃ t, exec i s = .next t ∧ (t.fl ≠ s.fl → ∃ a b, i = .cmp a b) ∧
    ∀ v : Byte, (v.getLsbD 0 = s.fl.getLsbD 0 ∨ ∀ r, i ≠ .jeq r ∧ i ≠ .jne r) →
      exec i (s.setFl v) = .next (match i with
        | .cmp _ _ => t
        | _ => t.setFl v)

/-- R23: the output trace is appended to by PRN, with the register's value, and by nothing else. -/
def Obligations.OutputWrittenByPrnOnly : Prop :=
  ∀ (i : Instr) (s t : State), exec i s = .next t →
    (∀ r, i = .prn r → t.out = s.out ++ [s.reg r]) ∧ (t.out ≠ s.out → ∃ r, i = .prn r)

/-- R45, R198: only PUSH and CALL write memory, and only the cell at (x[7] - 1) mod 256. -/
def Obligations.MemoryWrittenByPushAndCallOnly : Prop :=
  ∀ (i : Instr) (s t : State) (a : Addr), exec i s = .next t → t.memRead a ≠ s.memRead a →
    (∃ r, i = .push r ∨ i = .call r) ∧ a.toNat = ((s.reg 7).toNat + 255) % 256

/-! ## The ALU instructions -/

/-- R104, ADD. -/
def Obligations.AddRule : Prop :=
  ∀ (a b : Reg) (s : State), HasEncoding (.add a b) [0xA0, regByte a, regByte b] ∧
    CompletesWriting (.add a b) a 3 (fun v => v.toNat = ((s.reg a).toNat + (s.reg b).toNat) % 256) s

/-- R105, SUB. -/
def Obligations.SubRule : Prop :=
  ∀ (a b : Reg) (s : State), HasEncoding (.sub a b) [0xA1, regByte a, regByte b] ∧
    CompletesWriting (.sub a b) a 3 (fun v => (v.toNat : Int) = ((s.reg a).toNat - (s.reg b).toNat : Int) % 256) s

/-- R106, MULT. -/
def Obligations.MultRule : Prop :=
  ∀ (a b : Reg) (s : State), HasEncoding (.mult a b) [0xA2, regByte a, regByte b] ∧
    CompletesWriting (.mult a b) a 3 (fun v => v.toNat = ((s.reg a).toNat * (s.reg b).toNat) % 256) s

/-- R107, DIV: the floor of the quotient, or DivideByZero with no write. -/
def Obligations.DivRule : Prop :=
  ∀ (a b : Reg) (s : State), HasEncoding (.div a b) [0xA3, regByte a, regByte b] ∧
    (s.reg b ≠ 0 →
      CompletesWriting (.div a b) a 3 (fun v => v.toNat = (s.reg a).toNat / (s.reg b).toNat) s) ∧
    (s.reg b = 0 → ∃ t, exec (.div a b) s = .next t ∧ TookFault 3 0xA3 s t)

/-- R114, MOD: the remainder in 0 .. x[b] - 1, with DIV's quotient making up the dividend; or DivideByZero with no write. -/
def Obligations.ModRule : Prop :=
  ∀ (a b : Reg) (s : State), HasEncoding (.mod a b) [0xA4, regByte a, regByte b] ∧
    (s.reg b ≠ 0 →
      CompletesWriting (.mod a b) a 3 (fun v => v.toNat = (s.reg a).toNat % (s.reg b).toNat) s ∧
      ∃ t u, exec (.mod a b) s = .next t ∧ exec (.div a b) s = .next u ∧ (t.reg a).toNat < (s.reg b).toNat ∧
        (s.reg a).toNat = (u.reg a).toNat * (s.reg b).toNat + (t.reg a).toNat) ∧
    (s.reg b = 0 → ∃ t, exec (.mod a b) s = .next t ∧ TookFault 3 0xA4 s t)

/-- R108, CMP: FL becomes E, L or G by the unsigned values, equality first, nothing else changes; and JEQ after it branches exactly when the
values were equal, JNE exactly when they were not. -/
def Obligations.CmpRule : Prop :=
  ∀ (a b : Reg) (s : State), HasEncoding (.cmp a b) [0xA7, regByte a, regByte b] ∧
    CompletesKeeping (.cmp a b) (fun t =>
      t.fl = (if s.reg a = s.reg b then 0b00000001
        else if (s.reg a).toNat < (s.reg b).toNat then 0b00000100 else 0b00000010) ∧
      PcAdvanced 3 s t ∧ t.run = s.run ∧ t.out = s.out ∧
      ∀ r, (∃ u, exec (.jeq r) t = .next u ∧
          if s.reg a = s.reg b then u.pc = t.reg r else PcAdvanced 2 t u) ∧
        (∃ u, exec (.jne r) t = .next u ∧
          if s.reg a = s.reg b then PcAdvanced 2 t u else u.pc = t.reg r)) s

/-- R109, AND, bit by bit. -/
def Obligations.AndRule : Prop :=
  ∀ (a b : Reg) (s : State), HasEncoding (.and a b) [0xA8, regByte a, regByte b] ∧
    CompletesWriting (.and a b) a 3 (fun v => ∀ k, k < 8 → v.getLsbD k = ((s.reg a).getLsbD k && (s.reg b).getLsbD k)) s

/-- R110, OR, bit by bit. -/
def Obligations.OrRule : Prop :=
  ∀ (a b : Reg) (s : State), HasEncoding (.or a b) [0xAA, regByte a, regByte b] ∧
    CompletesWriting (.or a b) a 3 (fun v => ∀ k, k < 8 → v.getLsbD k = ((s.reg a).getLsbD k || (s.reg b).getLsbD k)) s

/-- R111, XOR, bit by bit. -/
def Obligations.XorRule : Prop :=
  ∀ (a b : Reg) (s : State), HasEncoding (.xor a b) [0xAB, regByte a, regByte b] ∧
    CompletesWriting (.xor a b) a 3 (fun v => ∀ k, k < 8 → v.getLsbD k = ((s.reg a).getLsbD k != (s.reg b).getLsbD k)) s

/-- R112, SHL: the whole count, zeros entering at bit 0, a count of 8 or more giving 0. -/
def Obligations.ShlRule : Prop :=
  ∀ (a b : Reg) (s : State), HasEncoding (.shl a b) [0xAC, regByte a, regByte b] ∧
    CompletesWriting (.shl a b) a 3 (fun v =>
      v.toNat = ((s.reg a).toNat * 2 ^ (s.reg b).toNat) % 256 ∧ (8 ≤ (s.reg b).toNat → v = 0)) s

/-- R113, SHR: logical, the whole count, a count of 8 or more giving 0. -/
def Obligations.ShrRule : Prop :=
  ∀ (a b : Reg) (s : State), HasEncoding (.shr a b) [0xAD, regByte a, regByte b] ∧
    CompletesWriting (.shr a b) a 3 (fun v =>
      v.toNat = (s.reg a).toNat / 2 ^ (s.reg b).toNat ∧ (8 ≤ (s.reg b).toNat → v = 0)) s

/-- R115, NOT: 255 - x[a], two bytes long whatever byte follows; applied twice it restores the value. -/
def Obligations.NotRule : Prop :=
  ∀ (a : Reg) (s : State), HasEncoding (.not a) [0x69, regByte a] ∧
    CompletesWriting (.not a) a 2 (fun v =>
      v.toNat = 255 - (s.reg a).toNat ∧ ∀ k, k < 8 → v.getLsbD k = !(s.reg a).getLsbD k) s ∧
    ∃ t u, exec (.not a) s = .next t ∧ exec (.not a) t = .next u ∧ u.reg a = s.reg a

/-! ## The dispatch-table instructions -/

/-- R130, LDI: register r equals v, no other register changed, no data access; op1 > 7 is rejected, every literal is legal. -/
def Obligations.LdiRule : Prop :=
  ∀ (r : Reg) (v : Byte) (s : State), HasEncoding (.ldi r v) [0x82, regByte r, v] ∧
    CompletesWriting (.ldi r v) r 3 (fun w => w = v) s ∧ dataAccesses (.ldi r v) s = [] ∧
    ∀ op1 op2 : Byte, decode 0x82 op1 op2 = .error .invalidRegisterIndex ↔ 7 < op1.toNat

/-- R131, PRN: the register's value is appended to the output trace; no register or memory is written. -/
def Obligations.PrnRule : Prop :=
  ∀ (r : Reg) (s : State), HasEncoding (.prn r) [0x47, regByte r] ∧
    CompletesKeeping (.prn r) (fun t =>
      t.out = s.out ++ [s.reg r] ∧ outputPulse (.prn r) s = some (s.reg r) ∧ PcAdvanced 2 s t ∧ t.fl = s.fl ∧ t.run = s.run) s

/-- R132, PUSH: x[7] is decremented modulo 256, then x[r], read after the decrement, is written where x[7] now points. -/
def Obligations.PushRule : Prop :=
  ∀ (r : Reg) (s : State), HasEncoding (.push r) [0x45, regByte r] ∧ ∃ t, exec (.push r) s = .next t ∧
    (t.reg 7).toNat = ((s.reg 7).toNat + 255) % 256 ∧ SameRegsExcept [7] s t ∧
    s.spDec.reg sp = t.reg 7 ∧
    t.memRead (s.spDec.reg sp) = (if r = 7 then t.reg 7 else s.reg r) ∧ SameMemoryExcept (s.spDec.reg sp) s t ∧
    PcAdvanced 2 s t ∧ t.fl = s.fl ∧ t.out = s.out ∧ SameSystem s t

/-- R133, POP: x[r] takes the byte at x[7], then x[7], read after that write, is incremented modulo 256; memory is unchanged; and PUSH r followed
at once by POP r leaves x[r] and x[7] as they were. -/
def Obligations.PopRule : Prop :=
  ∀ (r : Reg) (s : State), HasEncoding (.pop r) [0x46, regByte r] ∧
    (∃ t, exec (.pop r) s = .next t ∧
      (r ≠ 7 → t.reg r = s.memRead (s.reg 7) ∧ (t.reg 7).toNat = ((s.reg 7).toNat + 1) % 256) ∧
      (r = 7 → (t.reg 7).toNat = ((s.memRead (s.reg 7)).toNat + 1) % 256) ∧
      SameRegsExcept [r, 7] s t ∧ SameMemory s t ∧ PcAdvanced 2 s t ∧ t.fl = s.fl ∧ t.out = s.out ∧ SameSystem s t) ∧
    (∃ t u, exec (.push r) s = .next t ∧ exec (.pop r) t = .next u ∧ u.reg r = s.reg r ∧ u.reg 7 = s.reg 7)

/-- R134, CALL: the address of the next instruction is pushed, then pc takes x[r], read after the push. -/
def Obligations.CallRule : Prop :=
  ∀ (r : Reg) (s : State), HasEncoding (.call r) [0x50, regByte r] ∧ ∃ t, exec (.call r) s = .next t ∧
    (t.reg 7).toNat = ((s.reg 7).toNat + 255) % 256 ∧ SameRegsExcept [7] s t ∧
    s.spDec.reg sp = t.reg 7 ∧
    (t.memRead (s.spDec.reg sp)).toNat = (s.pc.toNat + 2) % 256 ∧ SameMemoryExcept (s.spDec.reg sp) s t ∧
    t.pc = (if r = 7 then t.reg 7 else s.reg r) ∧ t.fl = s.fl ∧ t.out = s.out ∧ SameSystem s t

/-- R135, RET: pc takes the byte at x[7], then x[7] is incremented modulo 256; and after a CALL, with the return address still in its cell and
x[7] pointing at it, RET resumes after the CALL's operand byte with x[7] as before the CALL. -/
def Obligations.RetRule : Prop :=
  HasEncoding .ret [0x11] ∧
  (∀ s : State, ∃ t, exec .ret s = .next t ∧ t.pc = s.memRead (s.reg 7) ∧
    (t.reg 7).toNat = ((s.reg 7).toNat + 1) % 256 ∧ SameRegsExcept [7] s t ∧ SameMemory s t ∧
    t.fl = s.fl ∧ t.out = s.out ∧ SameSystem s t) ∧
  (∀ (r : Reg) (s t u : State), exec (.call r) s = .next t → u.reg 7 = t.reg 7 →
    u.memRead (t.reg 7) = t.memRead (t.reg 7) →
    ∃ v, exec .ret u = .next v ∧ v.pc.toNat = (s.pc.toNat + 2) % 256 ∧ v.reg 7 = s.reg 7)

/-- R136, JMP: pc takes x[r]; nothing else changes. -/
def Obligations.JmpRule : Prop :=
  ∀ (r : Reg) (s : State), HasEncoding (.jmp r) [0x54, regByte r] ∧
    CompletesKeeping (.jmp r) (fun t => t.pc = s.reg r ∧ t.fl = s.fl ∧ t.out = s.out ∧ t.run = s.run) s

/-- R137, JEQ: as JMP when FL.E = 1, else pc + 2; only FL.E is read and FL survives; a bad index is rejected whether or not the branch would be
taken. -/
def Obligations.JeqRule : Prop :=
  ∀ (r : Reg) (s : State), HasEncoding (.jeq r) [0x55, regByte r] ∧
    CompletesKeeping (.jeq r) (fun t =>
      (s.fl.getLsbD 0 = true → t.pc = s.reg r) ∧ (s.fl.getLsbD 0 = false → PcAdvanced 2 s t) ∧
      t.fl = s.fl ∧ t.out = s.out ∧ t.run = s.run) s ∧
    ∀ op1 op2 : Byte, 7 < op1.toNat → decode 0x55 op1 op2 = .error .invalidRegisterIndex

/-- R138, JNE: as JMP when FL.E = 0, else pc + 2; exceptions as JEQ. -/
def Obligations.JneRule : Prop :=
  ∀ (r : Reg) (s : State), HasEncoding (.jne r) [0x56, regByte r] ∧
    CompletesKeeping (.jne r) (fun t =>
      (s.fl.getLsbD 0 = false → t.pc = s.reg r) ∧ (s.fl.getLsbD 0 = true → PcAdvanced 2 s t) ∧
      t.fl = s.fl ∧ t.out = s.out ∧ t.run = s.run) s ∧
    ∀ op1 op2 : Byte, 7 < op1.toNat → decode 0x56 op1 op2 = .error .invalidRegisterIndex

/-- R139, NOP: nothing but the pc advance. -/
def Obligations.NopRule : Prop :=
  ∀ s : State, HasEncoding .nop [0x00] ∧
    CompletesKeeping .nop (fun t => PcAdvanced 1 s t ∧ t.fl = s.fl ∧ t.out = s.out ∧ t.run = s.run) s

/-- R140, HLT: pc ends one past the HLT and the machine is Halted. R87 gives the Halted machine no successor; that the model's step answers the
fault named halted there is the model's choice (log entry 4). -/
def Obligations.HltRule : Prop :=
  ∀ s : State, HasEncoding .hlt [0x01] ∧
    CompletesKeeping .hlt (fun t =>
      PcAdvanced 1 s t ∧ t.run = .halted ∧ step t = .fault .halted ∧ t.fl = s.fl ∧ t.out = s.out) s

/-! ## Memory, reset and ports -/

/-- R42, R43, R193: a cell reads as the value most recently written to it, or as MEM_INIT if it has not been written since the run began. -/
def Obligations.MemoryReadsLatestWrite : Prop :=
  ∀ (init : Addr → Byte) (writes : List (Addr × Byte)) (a : Addr),
    (writes.foldl (fun s w => s.memWrite w.1 w.2) (State.boot init)).memRead a =
      (match writes.reverse.find? (fun w => w.1 == a) with
        | some w => w.2
        | none => init a)

/-- The canonical form is canonical: two memories in it that read the same everywhere are the same list (the model's choice, log entry 2). -/
def Obligations.CanonicalMemoriesAreEqual : Prop :=
  ∀ m m' : Mem, Mem.wf m = true → Mem.wf m' = true → (∀ a : Addr, Mem.get m a.toNat = Mem.get m' a.toNat) → m = m'

/-- R53: what a step pushes is what the next fetch finds in that cell, as opcode or as operand byte. -/
def Obligations.PushedByteIsFetched : Prop :=
  ∀ (r : Reg) (s : State), ∃ t, exec (.push r) s = .next t ∧
    (t.pc = t.reg 7 → t.opcodeByte = t.top) ∧ (t.pc + 1 = t.reg 7 → t.operand1 = t.top) ∧
    (t.pc + 2 = t.reg 7 → t.operand2 = t.top) ∧ t.top = (if r = 7 then t.reg 7 else s.reg r)

/-- R197: while x[7] is above the p program bytes, a push leaves them as they are. -/
def Obligations.StackAboveProgramKeepsIt : Prop :=
  ∀ (p : Nat) (r : Reg) (s t : State), StackAbove p s → exec (.push r) s = .next t ∨ exec (.call r) s = .next t →
    ∀ a : Addr, a.toNat < p → t.memRead a = s.memRead a

/-- R25: the value of every piece of state after reset, for every MEM_INIT. The numbers are the spec's decisions D10 to D13. -/
def Obligations.ResetValues : Prop :=
  ∀ init : Addr → Byte, (State.boot init).pc = 0x00 ∧ (State.boot init).reg 7 = 0xF4 ∧
    (∀ r : Reg, r ≠ 7 → (State.boot init).reg r = 0x00) ∧ (State.boot init).fl = 0x00 ∧
    (State.boot init).run = .running ∧ (State.boot init).faultCause = 0 ∧ (State.boot init).faultPc = 0 ∧
    (State.boot init).faultIr = 0 ∧ (State.boot init).out = [] ∧ ∀ a, (State.boot init).memRead a = init a

/-- The model's choice (log entry 1): `State.reset` is the machine after reset with the MEM_INIT that is 0 everywhere, the "0 elsewhere" of R193 with
no program loaded. -/
def Obligations.ResetHasZeroFilledMemory : Prop := State.reset = State.boot (fun _ => 0x00)

/-- R190: reset, in any run state, gives every piece of the block's state its reset value, empties the output trace and does not touch memory;
a step is then enabled. -/
def Obligations.ResetFromAnyState : Prop :=
  ∀ s : State, s.applyReset.pc = 0x00 ∧ s.applyReset.reg 7 = 0xF4 ∧ (∀ r : Reg, r ≠ 7 → s.applyReset.reg r = 0x00) ∧
    s.applyReset.fl = 0x00 ∧ s.applyReset.run = .running ∧ s.applyReset.faultCause = 0 ∧ s.applyReset.faultPc = 0 ∧
    s.applyReset.faultIr = 0 ∧ s.applyReset.out = [] ∧ SameMemory s s.applyReset ∧ ∃ t, step s.applyReset = .next t

/-- R136, R89: a JMP to its own address never ends: the machine is in the same state after any number of steps. -/
def Obligations.JumpToItselfNeverEnds : Prop :=
  ∀ (r : Reg) (s : State), s.run = .running → s.fetch = .ok (.jmp r) → s.reg r = s.pc →
    ∀ k, Host.Core.run core k s = .next s

/-- R193, R194: a program image loaded at address 0 is found there, with 0 elsewhere, and memory has the canonical form. For an image longer
than 256 bytes, which R193 says cannot be loaded, taking its first 256 bytes is the model's choice (log entry 15). -/
def Obligations.ImageIsLoadedFromZero : Prop :=
  ∀ (image : List Byte) (a : Addr),
    (∀ h : a.toNat < image.length, (State.boot (imageInit image)).memRead a = image[a.toNat]) ∧
    (image.length ≤ a.toNat → (State.boot (imageInit image)).memRead a = 0x00) ∧
    Mem.wf (State.boot (imageInit image)).mem = true

/-- R45, R46: the accesses of a step, in order: the instruction's bytes at ascending addresses modulo 256, then its one data access. An instruction
that faults makes the fetch accesses only; the operand bytes of an undefined opcode are not fetched (R80). -/
def Obligations.AccessesInOrder : Prop :=
  (∀ (s : State) (i : Instr), s.run = .running → s.fetch = .ok i →
    stepAccesses s = (List.range (encode i).length).map (fun k => .read (s.pc + BitVec.ofNat 8 k)) ++
      (match i with
        | .push r => [.write (s.reg 7 - 1) (if r = 7 then s.reg 7 - 1 else s.reg r)]
        | .call _ => [.write (s.reg 7 - 1) (s.pc + 2)]
        | .pop _ => [.read (s.reg 7)]
        | .ret => [.read (s.reg 7)]
        | _ => [])) ∧
  (∀ (s : State) (f : DecodeFault), s.run = .running → s.fetch = .error f →
    stepAccesses s = (List.range (if s.opcodeByte ∈ definedOpcodes then 1 + operandCount s.opcodeByte else 1)).map
      (fun k => .read (s.pc + BitVec.ofNat 8 k)))

/-- R199: a step makes 1 to 3 accesses, as many as the rule counts for its instruction. -/
def Obligations.AccessCounts : Prop :=
  ∀ (s : State) (i : Instr), s.run = .running → s.fetch = .ok i →
    (stepAccesses s).length = accessCount i ∧ 1 ≤ (stepAccesses s).length ∧ (stepAccesses s).length ≤ 3

/-- R30, R46: the writes on the memory port are all that a step does to memory; a step that faults writes nothing. -/
def Obligations.PortWritesAreTheMemoryChange : Prop :=
  ∀ s t : State, step s = .next t →
    t.mem = (stepAccesses s).foldl Access.apply s.mem ∧
    (t.run = .faulted → ∀ a v, .write a v ∉ stepAccesses s)

/-- R32: the status outputs are functions of the run state. -/
def Obligations.StatusPort : Prop :=
  ∀ s : State, (s.haltedOut = true ↔ s.run = .halted) ∧ (s.faultedOut = true ↔ s.run = .faulted)

/-! ## The whole machine -/

/-- R22: what a program can see decides what it does: from two states with the same registers, pc, FL.E, memory and run state, one step leads to
two such states again and appends the same output. -/
def Obligations.ProgramViewDecidesTheStep : Prop :=
  ∀ s u s' : State, SameProgramView s u → step s = .next s' →
    ∃ u', step u = .next u' ∧ SameProgramView s' u' ∧ ∃ added, s'.out = s.out ++ added ∧ u'.out = u.out ++ added

/-- The invariant of the machine (R17, R21, R165 and the canonical memory) holds at reset. -/
def Obligations.ResetHasTheInvariant : Prop := State.reset.Inv

/-- From every state that has the invariant, a step leads to a state that has it: FL stays one of its four legal values (R17), the fault registers
are 0 until the machine faults and then name the address, the opcode and the cause that the state still shows (R21, R165), and
memory keeps its canonical form. -/
def Obligations.StepKeepsTheInvariant : Prop :=
  ∀ s t : State, s.Inv → step s = .next t → t.Inv
end

