-- ==== Sys2Proof/Laws/Decode.lean ====
section
/-! SUPPORT. What the decoder's parts can answer, one lemma each: opcode lookup, register index, and the decoder as a whole. -/

namespace Sys2Proof

/-- A defined opcode is looked up as its row (R66). -/
@[simp] theorem decodeOpcode_opcodeOf (op : Op) : decodeOpcode (opcodeOf op) = .ok op := by cases op <;> rfl

/-- The lookup of all 256 bytes against the hex column, checked byte by byte. -/
theorem decodeOpcode_table : ∀ n : Fin 256, (match decodeOpcode (BitVec.ofFin n) with
    | .ok op => decide (opcodeOf op = BitVec.ofFin n)
    | .error f => decide (f = if aluFlag (BitVec.ofFin n) then .unknownAluOp else .unknownOpcode)) = true := by
  decide +kernel

/-- Everything the opcode lookup can answer: the row whose opcode the byte is, or the fault its ALU-flag bit chooses (R67, R68). -/
theorem decodeOpcode_cases (ir : Byte) :
    (∃ op, decodeOpcode ir = .ok op ∧ ir = opcodeOf op) ∨
    decodeOpcode ir = .error (if aluFlag ir then .unknownAluOp else .unknownOpcode) := by
  have h := decodeOpcode_table ir.toFin
  rw [show BitVec.ofFin ir.toFin = ir from rfl] at h
  split at h
  · next op e => exact .inl ⟨op, e, (of_decide_eq_true h).symm⟩
  · next f e => exact .inr (of_decide_eq_true h ▸ e)

theorem opcodeOf_injective {p q : Op} (h : opcodeOf p = opcodeOf q) : p = q := by
  have := decodeOpcode_opcodeOf p
  rw [h, decodeOpcode_opcodeOf] at this
  exact (Except.ok.inj this).symm

/-- A row's lookup reads back its opcode (R67: no two rows share a value). -/
theorem decodeOpcode_ok_iff {ir : Byte} {op : Op} : decodeOpcode ir = .ok op ↔ ir = opcodeOf op := by
  refine ⟨fun h => ?_, fun h => h ▸ decodeOpcode_opcodeOf op⟩
  obtain ⟨q, hq, rfl⟩ | hq := decodeOpcode_cases ir
  · rw [h] at hq
    rw [Except.ok.inj hq]
  · rw [h] at hq
    cases hq

theorem toNat_regByte (r : Reg) : (regByte r).toNat = r.val := by
  have := r.isLt
  simp [regByte]
  omega

@[simp] theorem decodeReg_regByte (r : Reg) : decodeReg (regByte r) = .ok r := by
  have := r.isLt
  simp [decodeReg, toNat_regByte]

/-- Everything the register-index check can answer (R65). -/
theorem decodeReg_cases (b : Byte) :
    (∃ r, decodeReg b = .ok r ∧ b = regByte r) ∨ (decodeReg b = .error .invalidRegisterIndex ∧ 7 < b.toNat) := by
  unfold decodeReg
  split
  · next h =>
    refine .inl ⟨_, rfl, ?_⟩
    simp [← BitVec.toNat_inj, toNat_regByte]
  · next h => exact .inr ⟨rfl, by omega⟩

theorem decodeR_regByte (mk : Reg → Instr) (r : Reg) : decodeR mk (regByte r) = .ok (mk r) := by
  simp [decodeR]

theorem decodeRI_regByte (mk : Reg → Byte → Instr) (r : Reg) (v : Byte) : decodeRI mk (regByte r) v = .ok (mk r v) := by
  simp [decodeRI]

theorem decodeRR_regByte (mk : Reg → Reg → Instr) (a b : Reg) :
    decodeRR mk (regByte a) (regByte b) = .ok (mk a b) := by
  simp [decodeRR]

/-- The decoder on a defined opcode is its row's operand reading (R67, R82). -/
@[simp] theorem decode_opcodeOf (op : Op) (op1 op2 : Byte) : decode (opcodeOf op) op1 op2 = decodeOperands op op1 op2 := by
  simp [decode]

/-- Everything the decoder can answer: an undefined opcode's fault, or what its row makes of the operand bytes. -/
theorem decode_cases (ir op1 op2 : Byte) :
    (∃ op, ir = opcodeOf op ∧ decode ir op1 op2 = decodeOperands op op1 op2) ∨
    ((∀ op, ir ≠ opcodeOf op) ∧
      decode ir op1 op2 = .error (if aluFlag ir then .unknownAluOp else .unknownOpcode)) := by
  obtain ⟨op, -, rfl⟩ | h := decodeOpcode_cases ir
  · exact .inl ⟨op, rfl, decode_opcodeOf op op1 op2⟩
  · refine .inr ⟨fun op e => ?_, by simp [decode, h]⟩
    rw [e, decodeOpcode_opcodeOf] at h
    cases h

end Sys2Proof
end

