-- ==== Sys2Proof/Laws/State.lean ====
section
/-! SUPPORT. One lemma per field per update of the state, and reading a register after a register write. -/

namespace Sys2Proof.Machine

variable (s : State)

/-! ## x[r] <- v -/

@[simp] theorem setReg_pc (r : Reg) (v : Byte) : (s.setReg r v).pc = s.pc := rfl
@[simp] theorem setReg_fl (r : Reg) (v : Byte) : (s.setReg r v).fl = s.fl := rfl
@[simp] theorem setReg_run (r : Reg) (v : Byte) : (s.setReg r v).run = s.run := rfl
@[simp] theorem setReg_faultCause (r : Reg) (v : Byte) : (s.setReg r v).faultCause = s.faultCause := rfl
@[simp] theorem setReg_faultPc (r : Reg) (v : Byte) : (s.setReg r v).faultPc = s.faultPc := rfl
@[simp] theorem setReg_faultIr (r : Reg) (v : Byte) : (s.setReg r v).faultIr = s.faultIr := rfl
@[simp] theorem setReg_mem (r : Reg) (v : Byte) : (s.setReg r v).mem = s.mem := rfl
@[simp] theorem setReg_out (r : Reg) (v : Byte) : (s.setReg r v).out = s.out := rfl
@[simp] theorem setReg_memRead (r : Reg) (v : Byte) (a : Addr) : (s.setReg r v).memRead a = s.memRead a := rfl

/-- A register reads back what was written to it and no other changes (R10). -/
theorem reg_setReg (r q : Reg) (v : Byte) : (s.setReg r v).reg q = if q = r then v else s.reg q := by
  simp [State.reg, State.setReg, Vector.getElem_set, Fin.ext_iff, eq_comm]

@[simp] theorem reg_setReg_self (r : Reg) (v : Byte) : (s.setReg r v).reg r = v := by simp [reg_setReg]

theorem reg_setReg_of_ne {r q : Reg} (h : q ≠ r) (v : Byte) : (s.setReg r v).reg q = s.reg q := by
  simp [reg_setReg, h]

/-! ## pc <- t -/

@[simp] theorem setPc_pc (t : Addr) : (s.setPc t).pc = t := rfl
@[simp] theorem setPc_reg (t : Addr) (r : Reg) : (s.setPc t).reg r = s.reg r := rfl
@[simp] theorem setPc_fl (t : Addr) : (s.setPc t).fl = s.fl := rfl
@[simp] theorem setPc_run (t : Addr) : (s.setPc t).run = s.run := rfl
@[simp] theorem setPc_faultCause (t : Addr) : (s.setPc t).faultCause = s.faultCause := rfl
@[simp] theorem setPc_faultPc (t : Addr) : (s.setPc t).faultPc = s.faultPc := rfl
@[simp] theorem setPc_faultIr (t : Addr) : (s.setPc t).faultIr = s.faultIr := rfl
@[simp] theorem setPc_mem (t : Addr) : (s.setPc t).mem = s.mem := rfl
@[simp] theorem setPc_out (t : Addr) : (s.setPc t).out = s.out := rfl
@[simp] theorem setPc_memRead (t a : Addr) : (s.setPc t).memRead a = s.memRead a := rfl

/-! ## FL <- v -/

@[simp] theorem setFl_fl (v : Byte) : (s.setFl v).fl = v := rfl
@[simp] theorem setFl_reg (v : Byte) (r : Reg) : (s.setFl v).reg r = s.reg r := rfl
@[simp] theorem setFl_pc (v : Byte) : (s.setFl v).pc = s.pc := rfl
@[simp] theorem setFl_run (v : Byte) : (s.setFl v).run = s.run := rfl
@[simp] theorem setFl_faultCause (v : Byte) : (s.setFl v).faultCause = s.faultCause := rfl
@[simp] theorem setFl_faultPc (v : Byte) : (s.setFl v).faultPc = s.faultPc := rfl
@[simp] theorem setFl_faultIr (v : Byte) : (s.setFl v).faultIr = s.faultIr := rfl
@[simp] theorem setFl_mem (v : Byte) : (s.setFl v).mem = s.mem := rfl
@[simp] theorem setFl_out (v : Byte) : (s.setFl v).out = s.out := rfl
@[simp] theorem setFl_memRead (v : Byte) (a : Addr) : (s.setFl v).memRead a = s.memRead a := rfl

/-! ## run <- v -/

@[simp] theorem setRun_run (v : RunState) : (s.setRun v).run = v := rfl
@[simp] theorem setRun_reg (v : RunState) (r : Reg) : (s.setRun v).reg r = s.reg r := rfl
@[simp] theorem setRun_pc (v : RunState) : (s.setRun v).pc = s.pc := rfl
@[simp] theorem setRun_fl (v : RunState) : (s.setRun v).fl = s.fl := rfl
@[simp] theorem setRun_faultCause (v : RunState) : (s.setRun v).faultCause = s.faultCause := rfl
@[simp] theorem setRun_faultPc (v : RunState) : (s.setRun v).faultPc = s.faultPc := rfl
@[simp] theorem setRun_faultIr (v : RunState) : (s.setRun v).faultIr = s.faultIr := rfl
@[simp] theorem setRun_mem (v : RunState) : (s.setRun v).mem = s.mem := rfl
@[simp] theorem setRun_out (v : RunState) : (s.setRun v).out = s.out := rfl
@[simp] theorem setRun_memRead (v : RunState) (a : Addr) : (s.setRun v).memRead a = s.memRead a := rfl

/-! ## MemWrite(a, 1, v); what memory then reads is in Laws/Memory.lean -/

@[simp] theorem memWrite_mem (a : Addr) (v : Byte) : (s.memWrite a v).mem = Mem.set s.mem a.toNat v := rfl
@[simp] theorem memWrite_reg (a : Addr) (v : Byte) (r : Reg) : (s.memWrite a v).reg r = s.reg r := rfl
@[simp] theorem memWrite_pc (a : Addr) (v : Byte) : (s.memWrite a v).pc = s.pc := rfl
@[simp] theorem memWrite_fl (a : Addr) (v : Byte) : (s.memWrite a v).fl = s.fl := rfl
@[simp] theorem memWrite_run (a : Addr) (v : Byte) : (s.memWrite a v).run = s.run := rfl
@[simp] theorem memWrite_faultCause (a : Addr) (v : Byte) : (s.memWrite a v).faultCause = s.faultCause := rfl
@[simp] theorem memWrite_faultPc (a : Addr) (v : Byte) : (s.memWrite a v).faultPc = s.faultPc := rfl
@[simp] theorem memWrite_faultIr (a : Addr) (v : Byte) : (s.memWrite a v).faultIr = s.faultIr := rfl
@[simp] theorem memWrite_out (a : Addr) (v : Byte) : (s.memWrite a v).out = s.out := rfl

/-! ## Out(v) -/

@[simp] theorem emit_out (v : Byte) : (s.emit v).out = s.out ++ [v] := rfl
@[simp] theorem emit_reg (v : Byte) (r : Reg) : (s.emit v).reg r = s.reg r := rfl
@[simp] theorem emit_pc (v : Byte) : (s.emit v).pc = s.pc := rfl
@[simp] theorem emit_fl (v : Byte) : (s.emit v).fl = s.fl := rfl
@[simp] theorem emit_run (v : Byte) : (s.emit v).run = s.run := rfl
@[simp] theorem emit_faultCause (v : Byte) : (s.emit v).faultCause = s.faultCause := rfl
@[simp] theorem emit_faultPc (v : Byte) : (s.emit v).faultPc = s.faultPc := rfl
@[simp] theorem emit_faultIr (v : Byte) : (s.emit v).faultIr = s.faultIr := rfl
@[simp] theorem emit_mem (v : Byte) : (s.emit v).mem = s.mem := rfl
@[simp] theorem emit_memRead (v : Byte) (a : Addr) : (s.emit v).memRead a = s.memRead a := rfl

/-! ## Taking a fault: everything it can do (R165) -/

@[simp] theorem takeFault_run (c : FaultCause) (ir : Byte) : (s.takeFault c ir).run = .faulted := rfl
@[simp] theorem takeFault_faultCause (c : FaultCause) (ir : Byte) : (s.takeFault c ir).faultCause = c.code := rfl
@[simp] theorem takeFault_faultPc (c : FaultCause) (ir : Byte) : (s.takeFault c ir).faultPc = s.pc := rfl
@[simp] theorem takeFault_faultIr (c : FaultCause) (ir : Byte) : (s.takeFault c ir).faultIr = ir := rfl
@[simp] theorem takeFault_reg (c : FaultCause) (ir : Byte) (r : Reg) : (s.takeFault c ir).reg r = s.reg r := rfl
@[simp] theorem takeFault_pc (c : FaultCause) (ir : Byte) : (s.takeFault c ir).pc = s.pc := rfl
@[simp] theorem takeFault_fl (c : FaultCause) (ir : Byte) : (s.takeFault c ir).fl = s.fl := rfl
@[simp] theorem takeFault_mem (c : FaultCause) (ir : Byte) : (s.takeFault c ir).mem = s.mem := rfl
@[simp] theorem takeFault_out (c : FaultCause) (ir : Byte) : (s.takeFault c ir).out = s.out := rfl
@[simp] theorem takeFault_memRead (c : FaultCause) (ir : Byte) (a : Addr) :
    (s.takeFault c ir).memRead a = s.memRead a := rfl

end Sys2Proof.Machine
end

