-- ==== Sys2Proof/Laws/Memory.lean ====
section
/-! SUPPORT. The laws of memory: what a cell reads after a write (of any list of cells), and that every operation keeps the canonical form. -/

namespace Sys2Proof.Machine

theorem Mem.wfFrom_cons {lo k : Nat} {v : Byte} {m : Mem} :
    Mem.wfFrom lo ((k, v) :: m) = true ↔
      lo ≤ k ∧ k < Config.core.memSize ∧ v ≠ Config.core.unlisted ∧ Mem.wfFrom (k + 1) m = true := by
  simp [Mem.wfFrom, and_assoc]

theorem Mem.wfFrom_weaken {lo lo' : Nat} (h : lo' ≤ lo) {m : Mem} (hm : Mem.wfFrom lo m = true) :
    Mem.wfFrom lo' m = true := by
  cases m with
  | nil => rfl
  | cons c m =>
    obtain ⟨h1, h2⟩ := Mem.wfFrom_cons.mp hm
    exact Mem.wfFrom_cons.mpr ⟨h.trans h1, h2⟩

/-- A cell below every listed one reads as unlisted. -/
theorem Mem.get_below {lo k : Nat} (h : k < lo) {m : Mem} (hm : Mem.wfFrom lo m = true) :
    Mem.get m k = Config.core.unlisted := by
  induction m generalizing lo with
  | nil => rfl
  | cons c m ih =>
    obtain ⟨h1, -, -, h4⟩ := Mem.wfFrom_cons.mp hm
    have hk : k ≠ c.1 := by omega
    simpa [Mem.get, hk] using ih (by omega) h4

/-! ## Reading -/

theorem Mem.get_erase (m : Mem) (k j : Nat) :
    Mem.get (Mem.erase m k) j = if j = k then Config.core.unlisted else Mem.get m j := by
  induction m with
  | nil => simp [Mem.erase, Mem.get]
  | cons c m ih =>
    by_cases hc : c.1 = k
    · have : Mem.erase (c :: m) k = Mem.erase m k := by simp [Mem.erase, hc]
      rw [this, ih]
      split
      · rfl
      · next h => simp [Mem.get, hc, h]
    · have : Mem.erase (c :: m) k = c :: Mem.erase m k := by simp [Mem.erase, hc]
      rw [this]
      by_cases hj : j = c.1
      · have : j ≠ k := fun h => hc (hj.symm.trans h)
        simp [Mem.get, hj, hc]
      · simpa [Mem.get, hj] using ih

theorem Mem.get_insert_of_ne {k j : Nat} (h : j ≠ k) (m : Mem) (v : Byte) :
    Mem.get (Mem.insert m k v) j = Mem.get m j := by
  induction m with
  | nil => simp [Mem.insert, Mem.get, h]
  | cons c m ih =>
    simp only [Mem.insert]
    split
    · simp [Mem.get, h]
    · simp [Mem.get, ih]

theorem Mem.get_insert_erase (m : Mem) (k : Nat) (v : Byte) :
    Mem.get (Mem.insert (Mem.erase m k) k v) k = v := by
  induction m with
  | nil => simp [Mem.insert, Mem.get, Mem.erase]
  | cons c m ih =>
    by_cases hc : c.1 = k
    · have : Mem.erase (c :: m) k = Mem.erase m k := by simp [Mem.erase, hc]
      rw [this, ih]
    · have : Mem.erase (c :: m) k = c :: Mem.erase m k := by simp [Mem.erase, hc]
      rw [this]
      simp only [Mem.insert]
      split
      · simp [Mem.get]
      · have : k ≠ c.1 := fun h => hc h.symm
        simpa [Mem.get, this] using ih

/-- What a cell reads after a write: the value written there, its old value elsewhere (R42, R43). -/
theorem Mem.get_set (m : Mem) (k j : Nat) (v : Byte) :
    Mem.get (Mem.set m k v) j = if j = k then v else Mem.get m j := by
  unfold Mem.set
  split
  · next h => rw [Mem.get_erase, h]
  · split
    · next h => rw [h, Mem.get_insert_erase]
    · next h => rw [Mem.get_insert_of_ne h, Mem.get_erase, if_neg h]

/-- MemRead after MemWrite (R42, R43). -/
theorem memRead_memWrite (s : State) (a b : Addr) (v : Byte) :
    (s.memWrite a v).memRead b = if b = a then v else s.memRead b := by
  simp only [State.memRead, memWrite_mem, Mem.get_set]
  simp [← BitVec.toNat_inj]

@[simp] theorem memRead_memWrite_self (s : State) (a : Addr) (v : Byte) : (s.memWrite a v).memRead a = v := by
  simp [memRead_memWrite]

theorem memRead_memWrite_of_ne (s : State) {a b : Addr} (h : b ≠ a) (v : Byte) :
    (s.memWrite a v).memRead b = s.memRead b := by
  simp [memRead_memWrite, h]

/-! ## The canonical form -/

theorem Mem.wfFrom_erase {lo : Nat} (k : Nat) {m : Mem} (hm : Mem.wfFrom lo m = true) :
    Mem.wfFrom lo (Mem.erase m k) = true := by
  induction m generalizing lo with
  | nil => rfl
  | cons c m ih =>
    obtain ⟨c1, c2, c3, c4⟩ := Mem.wfFrom_cons.mp hm
    by_cases hc : c.1 = k
    · have : Mem.erase (c :: m) k = Mem.erase m k := by simp [Mem.erase, hc]
      exact this ▸ Mem.wfFrom_weaken (by omega) (ih c4)
    · have : Mem.erase (c :: m) k = c :: Mem.erase m k := by simp [Mem.erase, hc]
      exact this ▸ Mem.wfFrom_cons.mpr ⟨c1, c2, c3, ih c4⟩

theorem Mem.wfFrom_insert {lo k : Nat} {v : Byte} {m : Mem} (h1 : lo ≤ k) (h2 : k < Config.core.memSize)
    (hv : v ≠ Config.core.unlisted) (hk : ∀ c ∈ m, c.1 ≠ k) (hm : Mem.wfFrom lo m = true) :
    Mem.wfFrom lo (Mem.insert m k v) = true := by
  induction m generalizing lo with
  | nil => exact Mem.wfFrom_cons.mpr ⟨h1, h2, hv, rfl⟩
  | cons c m ih =>
    obtain ⟨c1, c2, c3, c4⟩ := Mem.wfFrom_cons.mp hm
    simp only [Mem.insert]
    split
    · next h => exact Mem.wfFrom_cons.mpr ⟨h1, h2, hv, Mem.wfFrom_cons.mpr ⟨h, c2, c3, c4⟩⟩
    · next h =>
      have : c.1 ≠ k := hk c (by simp)
      exact Mem.wfFrom_cons.mpr ⟨c1, c2, c3, ih (by omega) (fun d hd => hk d (by simp [hd])) c4⟩

/-- Writing keeps the canonical form. -/
theorem Mem.wf_set {m : Mem} (hm : Mem.wf m = true) (a : Addr) (v : Byte) : Mem.wf (Mem.set m a.toNat v) = true := by
  unfold Mem.set
  split
  · exact Mem.wfFrom_erase _ hm
  · next h =>
    exact Mem.wfFrom_insert (Nat.zero_le _) a.isLt h (by simp [Mem.erase]) (Mem.wfFrom_erase _ hm)

theorem Mem.wfFrom_fill (init : Addr → Byte) {lo n : Nat} (h : lo + n ≤ Config.core.memSize) :
    Mem.wfFrom lo (Mem.fill init lo n) = true := by
  induction n generalizing lo with
  | zero => rfl
  | succ n ih =>
    simp only [Mem.fill]
    split
    · exact Mem.wfFrom_weaken (by omega) (ih (lo := lo + 1) (by omega))
    · next hv => exact Mem.wfFrom_cons.mpr ⟨le_rfl, by omega, hv, ih (by omega)⟩

/-- The memory of MEM_INIT has the canonical form. -/
theorem Mem.wf_ofInit (init : Addr → Byte) : Mem.wf (Mem.ofInit init) = true :=
  Mem.wfFrom_fill init (Nat.le_of_eq (Nat.zero_add _))

/-- The memory of `State.reset` has the canonical form. -/
theorem Mem.wf_reset : Mem.wf State.reset.mem = true := rfl

theorem Mem.get_fill (init : Addr → Byte) {lo n k : Nat} (h1 : lo ≤ k) (h2 : k < lo + n)
    (h : lo + n ≤ Config.core.memSize) : Mem.get (Mem.fill init lo n) k = init (BitVec.ofNat 8 k) := by
  induction n generalizing lo with
  | zero => omega
  | succ n ih =>
    by_cases hk : k = lo
    · subst hk
      simp only [Mem.fill]
      split
      · next hv => rw [hv, Mem.get_below (Nat.lt_succ_self k) (Mem.wfFrom_fill init (by omega))]
      · simp [Mem.get]
    · have := ih (lo := lo + 1) (by omega) (by omega) (by omega)
      simp only [Mem.fill]
      split
      · exact this
      · simpa [Mem.get, hk] using this

end Sys2Proof.Machine
end

