-- ==== Sys2Proof/Laws/Exec.lean ====
section
/-! SUPPORT. One lemma per shared operation of the machine (the engine's end of a step, the stack, the ALU's reduction), and one equation per
instruction: the state it leads to. Later proofs cite these and do not unfold the meanings. -/

namespace Sys2Proof.Machine

@[simp] theorem sp_eq : sp = 7 := rfl

/-! ## The engine (R84 to R86, R90) -/

/-- A rule that does not override `pc`: the engine adds 1 + n (R85). -/
theorem complete_plain (op : Op) (s t : State) :
    complete op s (.plain t) = .next (t.setPc (s.pc + BitVec.ofNat 8 (1 + operandCount (opcodeOf op)))) := by
  simp [complete, endStep, advancePc, Executed.plain, BitVec.ofNat_add, BitVec.add_assoc]

/-- A rule that has written `pc` keeps it (R85). -/
theorem complete_jump (op : Op) (s t : State) : complete op s (.jump t) = .next t := by
  simp [complete, endStep, advancePc, Executed.jump]

/-- HLT's rule: advance, then Halted (R86). -/
theorem complete_stop (op : Op) (s t : State) :
    complete op s (.stop t) =
      .next ((t.setPc (s.pc + BitVec.ofNat 8 (1 + operandCount (opcodeOf op)))).setRun .halted) := by
  simp [complete, endStep, advancePc, Executed.stop, BitVec.ofNat_add, BitVec.add_assoc]

/-! ## The stack (R141) -/

@[simp] theorem spDec_reg (s : State) (r : Reg) : s.spDec.reg r = if r = 7 then s.reg 7 - 1 else s.reg r := by
  simp [State.spDec, reg_setReg]

/-- Everything a push does (R141). -/
theorem pushWith_eq (s : State) (v : State → Byte) :
    s.pushWith v = (s.setReg 7 (s.reg 7 - 1)).memWrite (s.reg 7 - 1) (v (s.setReg 7 (s.reg 7 - 1))) := by
  simp [State.pushWith, State.spDec]

/-- Everything a pop's increment does (R141). -/
theorem spInc_eq (s : State) : s.spInc = s.setReg 7 (s.reg 7 + 1) := rfl

theorem top_eq (s : State) : s.top = s.memRead (s.reg 7) := rfl

/-! ## The ALU (R102) -/

/-- The reduction of a mathematical result to 8 bits (R102). -/
theorem wrap_toNat (n : Int) : ((wrap n).toNat : Int) = n % 256 := by
  simp [wrap, BitVec.toNat_ofInt]
  omega

theorem wrap_natCast (n : Nat) : (wrap (n : Int)).toNat = n % 256 := by
  have := wrap_toNat n
  omega

/-! ## One equation per instruction -/

variable (s : State) (a b r : Reg)

theorem exec_add : exec (.add a b) s =
    .next ((s.setReg a (wrap (val (s.reg a) + val (s.reg b)))).setPc (s.pc + 3)) := complete_plain .add s _

theorem exec_sub : exec (.sub a b) s =
    .next ((s.setReg a (wrap (val (s.reg a) - val (s.reg b)))).setPc (s.pc + 3)) := complete_plain .sub s _

theorem exec_mult : exec (.mult a b) s =
    .next ((s.setReg a (wrap (val (s.reg a) * val (s.reg b)))).setPc (s.pc + 3)) := complete_plain .mult s _

theorem exec_div : exec (.div a b) s =
    if s.reg b = 0 then .next (s.takeFault .divideByZero 0xA3)
    else .next ((s.setReg a (wrap (val (s.reg a) / val (s.reg b)))).setPc (s.pc + 3)) := by
  simp only [exec, execDiv, aluDiv]
  split
  · rfl
  · exact complete_plain .div s _

theorem exec_mod : exec (.mod a b) s =
    if s.reg b = 0 then .next (s.takeFault .divideByZero 0xA4)
    else .next ((s.setReg a (wrap (val (s.reg a) % val (s.reg b)))).setPc (s.pc + 3)) := by
  simp only [exec, execMod, aluMod]
  split
  · rfl
  · exact complete_plain .mod s _

theorem exec_cmp : exec (.cmp a b) s =
    .next ((s.setFl (compareFlags (s.reg a) (s.reg b))).setPc (s.pc + 3)) := complete_plain .cmp s _

theorem exec_and : exec (.and a b) s =
    .next ((s.setReg a (s.reg a &&& s.reg b)).setPc (s.pc + 3)) := complete_plain .and s _

theorem exec_or : exec (.or a b) s =
    .next ((s.setReg a (s.reg a ||| s.reg b)).setPc (s.pc + 3)) := complete_plain .or s _

theorem exec_xor : exec (.xor a b) s =
    .next ((s.setReg a (s.reg a ^^^ s.reg b)).setPc (s.pc + 3)) := complete_plain .xor s _

theorem exec_shl : exec (.shl a b) s =
    .next ((s.setReg a (wrap (val (s.reg a) * 2 ^ (s.reg b).toNat))).setPc (s.pc + 3)) := complete_plain .shl s _

theorem exec_shr : exec (.shr a b) s =
    .next ((s.setReg a (wrap (val (s.reg a) / 2 ^ (s.reg b).toNat))).setPc (s.pc + 3)) := complete_plain .shr s _

theorem exec_not : exec (.not a) s = .next ((s.setReg a (~~~(s.reg a))).setPc (s.pc + 2)) := complete_plain .not s _

theorem exec_ldi (v : Byte) : exec (.ldi r v) s = .next ((s.setReg r v).setPc (s.pc + 3)) := complete_plain .ldi s _

theorem exec_prn : exec (.prn r) s = .next ((s.emit (s.reg r)).setPc (s.pc + 2)) := complete_plain .prn s _

theorem exec_push : exec (.push r) s =
    .next (((s.setReg 7 (s.reg 7 - 1)).memWrite (s.reg 7 - 1) (if r = 7 then s.reg 7 - 1 else s.reg r)).setPc
      (s.pc + 2)) := by
  have h : (s.pushWith fun t => t.reg r) =
      (s.setReg 7 (s.reg 7 - 1)).memWrite (s.reg 7 - 1) (if r = 7 then s.reg 7 - 1 else s.reg r) := by
    simp [pushWith_eq, reg_setReg]
  exact h ▸ complete_plain .push s (s.pushWith fun t => t.reg r)

theorem exec_pop : exec (.pop r) s =
    .next (((s.setReg r (s.memRead (s.reg 7))).setReg 7
      ((if r = 7 then s.memRead (s.reg 7) else s.reg 7) + 1)).setPc (s.pc + 2)) := by
  have h : (s.setReg r s.top).spInc = (s.setReg r (s.memRead (s.reg 7))).setReg 7
      ((if r = 7 then s.memRead (s.reg 7) else s.reg 7) + 1) := by
    simp [spInc_eq, reg_setReg, top_eq, eq_comm (a := (7 : Reg))]
  exact h ▸ complete_plain .pop s (s.setReg r s.top).spInc

theorem exec_call : exec (.call r) s =
    .next (((s.setReg 7 (s.reg 7 - 1)).memWrite (s.reg 7 - 1) (s.pc + 2)).setPc
      (if r = 7 then s.reg 7 - 1 else s.reg r)) := by
  simp [exec, execCall, complete_jump, callPush, pushWith_eq, reg_setReg]

theorem exec_ret : exec .ret s =
    .next ((s.setPc (s.memRead (s.reg 7))).setReg 7 (s.reg 7 + 1)) := complete_jump .ret s _

theorem exec_jmp : exec (.jmp r) s = .next (s.setPc (s.reg r)) := complete_jump .jmp s _

theorem exec_jeq : exec (.jeq r) s =
    .next (s.setPc (if flagE s.fl then s.reg r else s.pc + 2)) := by
  simp only [exec, execJeq]
  split
  · exact complete_jump .jeq s _
  · exact complete_plain .jeq s _

theorem exec_jne : exec (.jne r) s =
    .next (s.setPc (if flagE s.fl then s.pc + 2 else s.reg r)) := by
  simp only [exec, execJne]
  split
  · exact complete_plain .jne s _
  · exact complete_jump .jne s _

/-- A branch with FL.E = 1 (R137, R138). -/
theorem exec_branch_of_equal (h : flagE s.fl = true) :
    exec (.jeq r) s = .next (s.setPc (s.reg r)) ∧ exec (.jne r) s = .next (s.setPc (s.pc + 2)) := by
  simp [exec_jeq, exec_jne, h]

/-- A branch with FL.E = 0 (R137, R138). -/
theorem exec_branch_of_not_equal (h : flagE s.fl = false) :
    exec (.jeq r) s = .next (s.setPc (s.pc + 2)) ∧ exec (.jne r) s = .next (s.setPc (s.reg r)) := by
  simp [exec_jeq, exec_jne, h]

theorem exec_nop : exec .nop s = .next (s.setPc (s.pc + 1)) := complete_plain .nop s _

theorem exec_hlt : exec .hlt s = .next ((s.setPc (s.pc + 1)).setRun .halted) := complete_stop .hlt s _

/-! ## The step (R80, R87) -/

/-- Everything a step can do when it answers a next state: the machine was Running, and either the fetched instruction ran or the fetch's fault
was taken. -/
theorem step_cases {s t : State} (h : step s = .next t) :
    s.run = .running ∧ ((∃ i, s.fetch = .ok i ∧ exec i s = .next t) ∨
      ∃ f, s.fetch = .error f ∧ t = s.takeFault (causeOfDecode f) s.opcodeByte) := by
  unfold step at h
  split at h
  · cases h
  · cases h
  · next hr =>
    refine ⟨hr, ?_⟩
    split at h
    · next i hi => exact .inl ⟨i, hi, h⟩
    · next f hf => exact .inr ⟨f, hf, by simpa using h.symm⟩

theorem step_of_fetch_ok {s : State} {i : Instr} (hr : s.run = .running) (h : s.fetch = .ok i) : step s = exec i s := by
  simp [step, hr, h]

theorem step_of_fetch_error {s : State} {f : DecodeFault} (hr : s.run = .running) (h : s.fetch = .error f) :
    step s = .next (s.takeFault (causeOfDecode f) s.opcodeByte) := by
  simp [step, hr, h]

end Sys2Proof.Machine
end

