-- ==== Sys2Proof/Laws/PerInstr.lean ====
section
/-! SUPPORT. The per-instruction family OperandsFit: every instruction's operand bytes fit the format of its row (30_encoding.md R60, R65).
One lemma per constructor of Instr. -/

namespace Sys2Proof.Laws

/-- The instruction is well-formed: as many operand bytes as its format has, every declared register index at most 7. -/
def OperandsFit.Statement (i : Instr) : Prop := i.WellFormed = true

theorem isRegIndex_regByte (r : Reg) : isRegIndex (regByte r) = true := by
  have := r.isLt
  simp [isRegIndex, regByte]
  omega

theorem OperandsFit.nop : OperandsFit.Statement .nop := rfl

theorem OperandsFit.hlt : OperandsFit.Statement .hlt := rfl

theorem OperandsFit.ret : OperandsFit.Statement .ret := rfl

theorem OperandsFit.push (r : Reg) : OperandsFit.Statement (.push r) := isRegIndex_regByte r

theorem OperandsFit.pop (r : Reg) : OperandsFit.Statement (.pop r) := isRegIndex_regByte r

theorem OperandsFit.prn (r : Reg) : OperandsFit.Statement (.prn r) := isRegIndex_regByte r

theorem OperandsFit.call (r : Reg) : OperandsFit.Statement (.call r) := isRegIndex_regByte r

theorem OperandsFit.jmp (r : Reg) : OperandsFit.Statement (.jmp r) := isRegIndex_regByte r

theorem OperandsFit.jeq (r : Reg) : OperandsFit.Statement (.jeq r) := isRegIndex_regByte r

theorem OperandsFit.jne (r : Reg) : OperandsFit.Statement (.jne r) := isRegIndex_regByte r

theorem OperandsFit.not (a : Reg) : OperandsFit.Statement (.not a) := isRegIndex_regByte a

theorem OperandsFit.ldi (r : Reg) (v : Byte) : OperandsFit.Statement (.ldi r v) := isRegIndex_regByte r

theorem OperandsFit.add (a b : Reg) : OperandsFit.Statement (.add a b) :=
  (Bool.and_eq_true _ _).mpr ⟨isRegIndex_regByte a, isRegIndex_regByte b⟩

theorem OperandsFit.sub (a b : Reg) : OperandsFit.Statement (.sub a b) :=
  (Bool.and_eq_true _ _).mpr ⟨isRegIndex_regByte a, isRegIndex_regByte b⟩

theorem OperandsFit.mult (a b : Reg) : OperandsFit.Statement (.mult a b) :=
  (Bool.and_eq_true _ _).mpr ⟨isRegIndex_regByte a, isRegIndex_regByte b⟩

theorem OperandsFit.div (a b : Reg) : OperandsFit.Statement (.div a b) :=
  (Bool.and_eq_true _ _).mpr ⟨isRegIndex_regByte a, isRegIndex_regByte b⟩

theorem OperandsFit.mod (a b : Reg) : OperandsFit.Statement (.mod a b) :=
  (Bool.and_eq_true _ _).mpr ⟨isRegIndex_regByte a, isRegIndex_regByte b⟩

theorem OperandsFit.cmp (a b : Reg) : OperandsFit.Statement (.cmp a b) :=
  (Bool.and_eq_true _ _).mpr ⟨isRegIndex_regByte a, isRegIndex_regByte b⟩

theorem OperandsFit.and (a b : Reg) : OperandsFit.Statement (.and a b) :=
  (Bool.and_eq_true _ _).mpr ⟨isRegIndex_regByte a, isRegIndex_regByte b⟩

theorem OperandsFit.or (a b : Reg) : OperandsFit.Statement (.or a b) :=
  (Bool.and_eq_true _ _).mpr ⟨isRegIndex_regByte a, isRegIndex_regByte b⟩

theorem OperandsFit.xor (a b : Reg) : OperandsFit.Statement (.xor a b) :=
  (Bool.and_eq_true _ _).mpr ⟨isRegIndex_regByte a, isRegIndex_regByte b⟩

theorem OperandsFit.shl (a b : Reg) : OperandsFit.Statement (.shl a b) :=
  (Bool.and_eq_true _ _).mpr ⟨isRegIndex_regByte a, isRegIndex_regByte b⟩

theorem OperandsFit.shr (a b : Reg) : OperandsFit.Statement (.shr a b) :=
  (Bool.and_eq_true _ _).mpr ⟨isRegIndex_regByte a, isRegIndex_regByte b⟩

end Sys2Proof.Laws
end

