-- ==== Sys2Proof/Tests/Slice0.lean ====
section
/-! SUPPORT. The model's own tests: the well-formedness smoke, words written out from 30_encoding.md R66, whole-step vectors of
95_test_vectors.md (named in each docstring), and a witness for the hypotheses of each obligation. -/

namespace Sys2Proof.Machine.Tests


/-! ## Helpers -/

/-- Bytes stored from `a` on, addresses modulo 256. -/
def store (a : Addr) : List Byte → State → State
  | [], s => s
  | b :: bs, s => store (a + 1) bs (s.memWrite a b)

/-- The reset state with an instruction's bytes at `pc` and some registers set. -/
def machine (pc : Addr) (bytes : List Byte) (regs : List (Reg × Byte)) : State :=
  regs.foldl (fun s p => s.setReg p.1 p.2) ((store pc bytes State.reset).setPc pc)

/-- One step leads to a next state in which `p` holds. -/
def after (s : State) (p : State → Bool) : Bool :=
  match step s with
  | .next t => p t
  | .fault _ => false
  | .refused _ => false

/-- One step takes a fault with this record, and `pc` stays (R165). -/
def faultsWith (s : State) (cause : BitVec 3) (pc ir : Byte) : Bool :=
  after s fun t => t.run == .faulted && t.faultCause == cause && t.faultPc == pc && t.faultIr == ir && t.pc == pc

/-! ## Well-formedness: an ill-formed term for each check -/

/-- R60: too few operand bytes for the format. -/
theorem test_wellFormed_refuses_missing_operand : operandsFit .rr [0x01] = false := by decide
/-- R60: an operand byte the format does not have. -/
theorem test_wellFormed_refuses_extra_operand : operandsFit .z [0x01] = false := by decide
/-- R65: register index 8 as first index. -/
theorem test_wellFormed_refuses_index_8 : operandsFit .r [0x08] = false ∧ operandsFit .ri [0x08, 0x00] = false := by decide
/-- R65: register index 8 as second index; 7 is the last valid one. -/
theorem test_wellFormed_second_index : operandsFit .rr [0x07, 0x08] = false ∧ operandsFit .rr [0x07, 0x07] = true := by decide
/-- R69: LDI's literal is not an index. -/
theorem test_wellFormed_literal_is_free : operandsFit .ri [0x07, 0xFF] = true := by decide

/-! ## Decoding: words written out from R66's binary column -/

theorem test_decode_format_z :
    decode 0b00000000 0x77 0x77 = .ok .nop ∧ decode 0b00000001 0x77 0x77 = .ok .hlt ∧
    decode 0b00010001 0x77 0x77 = .ok .ret := by decide

theorem test_decode_format_r :
    decode 0b01000101 0x00 0x77 = .ok (.push 0) ∧ decode 0b01000110 0x01 0x77 = .ok (.pop 1) ∧
    decode 0b01000111 0x02 0x77 = .ok (.prn 2) ∧ decode 0b01010000 0x03 0x77 = .ok (.call 3) ∧
    decode 0b01010100 0x04 0x77 = .ok (.jmp 4) ∧ decode 0b01010101 0x05 0x77 = .ok (.jeq 5) ∧
    decode 0b01010110 0x06 0x77 = .ok (.jne 6) ∧ decode 0b01101001 0x07 0x77 = .ok (.not 7) := by decide

theorem test_decode_format_ri : decode 0b10000010 0x00 0x08 = .ok (.ldi 0 8) ∧
    decode 0b10000010 0x07 0xFF = .ok (.ldi 7 0xFF) := by decide

theorem test_decode_format_rr_arithmetic :
    decode 0b10100000 0x00 0x01 = .ok (.add 0 1) ∧ decode 0b10100001 0x01 0x02 = .ok (.sub 1 2) ∧
    decode 0b10100010 0x02 0x03 = .ok (.mult 2 3) ∧ decode 0b10100011 0x03 0x04 = .ok (.div 3 4) ∧
    decode 0b10100100 0x04 0x05 = .ok (.mod 4 5) ∧ decode 0b10100111 0x05 0x06 = .ok (.cmp 5 6) := by decide

theorem test_decode_format_rr_logic :
    decode 0b10101000 0x06 0x07 = .ok (.and 6 7) ∧ decode 0b10101010 0x07 0x06 = .ok (.or 7 6) ∧
    decode 0b10101011 0x02 0x01 = .ok (.xor 2 1) ∧ decode 0b10101100 0x00 0x07 = .ok (.shl 0 7) ∧
    decode 0b10101101 0x07 0x00 = .ok (.shr 7 0) := by decide

/-- 95 section 2.3. -/
theorem test_decode_unknownOpcode :
    ([0x02, 0x10, 0x13, 0x48, 0x52, 0x57, 0x58, 0x59, 0x5A, 0x83, 0x84, 0xC0] : List Byte).all
      (fun ir => decode ir 0x09 0x09 = .error .unknownOpcode) = true := by decide

/-- 95 section 2.3. -/
theorem test_decode_unknownAluOp :
    ([0x20, 0x65, 0x66, 0x68, 0x6A, 0xA5, 0xA6, 0xA9, 0xAE, 0xAF, 0xB0, 0xFF] : List Byte).all
      (fun ir => decode ir 0x09 0x09 = .error .unknownAluOp) = true := by decide

/-- 30_encoding.md R72's example bytes of `LDI R1,9` and `ADD R0,R1`. -/
theorem test_encode_example : encode (.ldi 1 9) = [0b10000010, 0b00000001, 0b00001001] ∧
    encode (.add 0 1) = [0b10100000, 0b00000000, 0b00000001] := by decide

/-- The table's numbering: the first byte is the least significant; bits above nbits are 0. -/
theorem test_decodeTableWord : decodeTableWord 24 0x0100A0 = some (.add 0 1) ∧ decodeTableWord 8 0x0909A0 = some (.add 0 0) ∧
    decodeTableWord 8 0x02 = none := by decide

/-- An instruction placed by withFetchWord is the one the next step runs. -/
theorem test_withFetchWord : after (State.reset.withFetchWord 24 0xFF0382) (fun t => t.reg 3 == 0xFF && t.pc == 0x03) = true := by
  decide

/-! ## The ALU instructions -/

/-- V-ALU-1. -/
theorem test_add : after (machine 0x06 [0xA0, 0x00, 0x01] [(0, 0x08), (1, 0x09)]) (fun t =>
    t.reg 0 == 0x11 && t.reg 1 == 0x09 && t.pc == 0x09) = true := by decide
/-- V-ADD: the sum wraps. -/
theorem test_add_wraps : after (machine 0x00 [0xA0, 0x00, 0x01] [(0, 0xFF), (1, 0x01)]) (fun t => t.reg 0 == 0x00) = true := by
  decide
/-- V-SUB: 5 - 9. -/
theorem test_sub_wraps : after (machine 0x00 [0xA1, 0x00, 0x01] [(0, 0x05), (1, 0x09)]) (fun t => t.reg 0 == 0xFC) = true := by
  decide
/-- V-MULT: 200 * 3. -/
theorem test_mult_low_byte : after (machine 0x00 [0xA2, 0x00, 0x01] [(0, 0xC8), (1, 0x03)]) (fun t => t.reg 0 == 0x58) = true := by
  decide
/-- V-DIV: 255 / 2. -/
theorem test_div_floor : after (machine 0x00 [0xA3, 0x00, 0x01] [(0, 0xFF), (1, 0x02)]) (fun t => t.reg 0 == 0x7F) = true := by
  decide
/-- V-ALU-6. -/
theorem test_div_by_zero : faultsWith (machine 0x00 [0xA3, 0x00, 0x01] [(0, 0x07)]) 3 0x00 0xA3 = true := by decide
/-- V-MOD: 200 mod 7. -/
theorem test_mod : after (machine 0x00 [0xA4, 0x00, 0x01] [(0, 0xC8), (1, 0x07)]) (fun t => t.reg 0 == 0x04) = true := by
  decide
/-- V-MOD: by zero. -/
theorem test_mod_by_zero : faultsWith (machine 0x00 [0xA4, 0x00, 0x01] [(0, 0x07)]) 3 0x00 0xA4 = true := by decide
/-- V-CMP: unsigned, 0x7F < 0x80. -/
theorem test_cmp_unsigned : after (machine 0x00 [0xA7, 0x01, 0x03] [(1, 0x7F), (3, 0x80)]) (fun t =>
    t.fl == 0b100 && t.reg 1 == 0x7F && t.pc == 0x03) = true := by decide
/-- V-ALU-3. -/
theorem test_cmp_greater : after (machine 0x00 [0xA7, 0x01, 0x03] [(1, 0x02)]) (fun t => t.fl == 0b010) = true := by decide
/-- V-AND. -/
theorem test_and : after (machine 0x00 [0xA8, 0x00, 0x01] [(0, 0xCC), (1, 0xAA)]) (fun t => t.reg 0 == 0x88) = true := by decide
/-- V-OR. -/
theorem test_or : after (machine 0x00 [0xAA, 0x00, 0x01] [(0, 0xCC), (1, 0xAA)]) (fun t => t.reg 0 == 0xEE) = true := by decide
/-- V-ALU-5: operand fetch and pc wrap. -/
theorem test_xor_wraps_fetch : after (machine 0xFE [0xAB, 0x02, 0x01] [(2, 0x10), (1, 0x20)]) (fun t =>
    t.reg 2 == 0x30 && t.pc == 0x01) = true := by decide
/-- V-SHL: a count of 8 is not masked. -/
theorem test_shl_by_8 : after (machine 0x00 [0xAC, 0x00, 0x01] [(0, 0x01), (1, 0x08)]) (fun t => t.reg 0 == 0x00) = true := by
  decide
/-- V-SHL. -/
theorem test_shl : after (machine 0x00 [0xAC, 0x00, 0x01] [(0, 0x81), (1, 0x01)]) (fun t => t.reg 0 == 0x02) = true := by decide
/-- V-SHR: logical. -/
theorem test_shr_logical : after (machine 0x00 [0xAD, 0x00, 0x01] [(0, 0x80), (1, 0x01)]) (fun t => t.reg 0 == 0x40) = true := by
  decide
/-- V-SHR: the largest count. -/
theorem test_shr_by_255 : after (machine 0x00 [0xAD, 0x00, 0x01] [(0, 0xFF), (1, 0xFF)]) (fun t => t.reg 0 == 0x00) = true := by
  decide
/-- V-ALU-8: NOT is two bytes; the byte 09 after it is not checked. -/
theorem test_not : after (machine 0x00 [0x69, 0x00, 0x09] []) (fun t => t.reg 0 == 0xFF && t.pc == 0x02) = true := by decide

/-! ## The dispatch-table instructions -/

/-- V-LDI-4: fetch wraps. -/
theorem test_ldi_wraps_fetch : after (machine 0xFF [0x82, 0x03, 0x77] []) (fun t => t.reg 3 == 0x77 && t.pc == 0x02) = true := by
  decide
/-- V-LDI-5. -/
theorem test_ldi_bad_index : faultsWith (machine 0x00 [0x82, 0x08, 0x01] []) 4 0x00 0x82 = true := by decide
/-- V-PRN-2. -/
theorem test_prn : after (machine 0x00 [0x47, 0x07] []) (fun t => t.out == [0xF4] && t.pc == 0x02) = true := by decide
/-- V-PUSH-2: the decremented value is pushed. -/
theorem test_push_r7 : after (machine 0x00 [0x45, 0x07] []) (fun t =>
    t.reg 7 == 0xF3 && t.memRead 0xF3 == 0xF3 && t.pc == 0x02) = true := by decide
/-- V-PUSH-3: the stack pointer wraps. -/
theorem test_push_wraps : after (machine 0x00 [0x45, 0x00] [(7, 0x00), (0, 0xAB)]) (fun t =>
    t.reg 7 == 0xFF && t.memRead 0xFF == 0xAB) = true := by decide
/-- V-POP-2: the popped byte, then incremented. -/
theorem test_pop_r7 : after ((machine 0x00 [0x46, 0x07] []).memWrite 0xF4 0x33) (fun t => t.reg 7 == 0x34 && t.pc == 0x02) = true := by
  decide
/-- V-POP-3: wrap. -/
theorem test_pop_wraps : after ((machine 0x00 [0x46, 0x00] [(7, 0xFF)]).memWrite 0xFF 0x5A) (fun t =>
    t.reg 0 == 0x5A && t.reg 7 == 0x00) = true := by decide
/-- V-CALL-2: the return address wraps. -/
theorem test_call_wraps : after (machine 0xFE [0x50, 0x01] [(1, 0x40)]) (fun t =>
    t.memRead 0xF3 == 0x00 && t.reg 7 == 0xF3 && t.pc == 0x40) = true := by decide
/-- V-CALL-4: the target is the decremented stack pointer. -/
theorem test_call_r7 : after (machine 0x00 [0x50, 0x07] []) (fun t =>
    t.reg 7 == 0xF3 && t.memRead 0xF3 == 0x02 && t.pc == 0xF3) = true := by decide
/-- V-RET-1. -/
theorem test_ret : after ((machine 0x1B [0x11] [(7, 0xF3)]).memWrite 0xF3 0x05) (fun t => t.pc == 0x05 && t.reg 7 == 0xF4) = true := by
  decide
/-- V-JMP-1. -/
theorem test_jmp : after (machine 0x18 [0x54, 0x04] [(4, 0x0F)]) (fun t => t.pc == 0x0F) = true := by decide
/-- V-JEQ-1. -/
theorem test_jeq_taken : after ((machine 0x10 [0x55, 0x02] [(2, 0x20)]).setFl 0b001) (fun t => t.pc == 0x20 && t.fl == 0b001) = true := by
  decide
/-- V-JEQ-2: not taken, pc still advances although spc = 1. -/
theorem test_jeq_not_taken : after ((machine 0x10 [0x55, 0x02] [(2, 0x20)]).setFl 0b100) (fun t => t.pc == 0x12 && t.fl == 0b100) = true := by
  decide
/-- V-JEQ-5. -/
theorem test_jeq_bad_index : faultsWith ((machine 0x00 [0x55, 0x09] []).setFl 0b100) 4 0x00 0x55 = true := by decide
/-- V-JNE-3: no CMP yet. -/
theorem test_jne_after_reset : after (machine 0x00 [0x56, 0x04] [(4, 0x0F)]) (fun t => t.pc == 0x0F) = true := by decide
/-- V-JNE-2. -/
theorem test_jne_not_taken : after ((machine 0x18 [0x56, 0x04] [(4, 0x0F)]).setFl 0b001) (fun t => t.pc == 0x1A) = true := by decide
/-- V-NOP-2. -/
theorem test_nop_wraps : after (machine 0xFF [0x00] []) (fun t => t.pc == 0x00 && t.run == .running) = true := by decide
/-- V-HLT-1. -/
theorem test_hlt : after (machine 0x0B [0x01] []) (fun t => t.pc == 0x0C && t.run == .halted && t.out == []) = true := by decide

/-! ## Faults at decode -/

/-- S3 (a). -/
theorem test_unknownOpcode : faultsWith (machine 0x00 [0x02] []) 1 0x00 0x02 = true := by decide
/-- S3 (b): the operand bytes are never judged. -/
theorem test_unknownAluOp : faultsWith (machine 0x00 [0xA5, 0x09, 0x09] []) 2 0x00 0xA5 = true := by decide
/-- V-ALU-7: InvalidRegisterIndex outranks DivideByZero. -/
theorem test_fault_priority : faultsWith (machine 0x00 [0xA3, 0x00, 0x09] []) 4 0x00 0xA3 = true := by decide

/-! ## Memory and ports -/

/-- Writing what an unlisted cell reads as removes the entry; entries rise. -/
theorem test_memory_canonical : (((State.reset.memWrite 9 1).memWrite 4 2).memWrite 9 0).mem = [(4, 2)] ∧
    ((State.reset.memWrite 9 1).memWrite 4 2).mem = [(4, 2), (9, 1)] := by decide

/-- A memory out of order, one with an entry that is not listed, one outside the address space. -/
theorem test_memory_wf_refuses : Mem.wf [(9, 1), (4, 2)] = false ∧ Mem.wf [(4, 0)] = false ∧ Mem.wf [(256, 1)] = false := by decide

/-- R46, R199: PUSH makes three accesses, RET two, an undefined opcode one. -/
theorem test_port_accesses :
    stepAccesses (machine 0x09 [0x45, 0x00] [(0, 0x10)]) = [.read 0x09, .read 0x0A, .write 0xF3 0x10] ∧
    stepAccesses (machine 0xFF [0x11] []) = [.read 0xFF, .read 0xF4] ∧
    stepAccesses (machine 0x00 [0xA5, 0x09, 0x09] []) = [.read 0x00] := by decide

/-! ## Witnesses: a state and operands that meet the hypotheses of each obligation -/

/-- DecodeInvertsEncode, DecodedBytesAreTheEncoding. -/
theorem test_witness_encoding : encode (.sub 1 2) <+: [0xA1, 0x01, 0x02] ∧ decode 0xA1 0x01 0x02 = .ok (.sub 1 2) ∧
    encode .nop <+: [0x00, 0xFF, 0xFF] ∧ decode 0x00 0xFF 0xFF = .ok .nop := by decide

/-- UndefinedOpcodesByRange: both sides at the ends of the ranges; RegisterIndexCheckedByDecoder at 7 and 8. -/
theorem test_witness_rejections : decode 0x20 0 0 = .error .unknownAluOp ∧ decode 0x3F 0 0 = .error .unknownAluOp ∧
    decode 0xE0 0 0 = .error .unknownAluOp ∧ decode 0x1F 0 0 = .error .unknownOpcode ∧ decode 0x40 0 0 = .error .unknownOpcode ∧
    decode 0xAD 0x07 0x08 = .error .invalidRegisterIndex ∧ badIndex 0xAD 0x07 0x08 = true ∧ badIndex 0xAD 0x07 0x07 = false := by decide

/-- StepRunsDecodedInstruction, AccessesInOrder (first part), AccessCounts: a Running machine whose bytes decode. -/
theorem test_witness_fetch_ok : (machine 0x00 [0xA0, 0x00, 0x01] []).run = .running ∧
    (machine 0x00 [0xA0, 0x00, 0x01] []).fetch = .ok (.add 0 1) ∧
    (machine 0xFF [0x11] []).fetch = .ok .ret := by decide

/-- AccessesInOrder (second part), PcAfterEveryInstruction (second part): fetches that are rejected. -/
theorem test_witness_fetch_error : (machine 0x00 [0x45, 0x08] []).run = .running ∧
    (machine 0x00 [0x45, 0x08] []).fetch = .error .invalidRegisterIndex ∧
    (machine 0x00 [0x02] []).fetch = .error .unknownOpcode ∧ (machine 0x00 [0xA5] []).fetch = .error .unknownAluOp := by decide

/-- HaltedAndFaultedHaveNoStep. -/
theorem test_witness_no_step : (State.reset.setRun .halted).run = .halted ∧
    (State.reset.takeFault .unknownOpcode 0x02).run = .faulted := by decide

/-- FaultsByPriorityAndPrecise, RunningStepIsAlwaysEnabled: a Running machine for each value of faultDue. -/
theorem test_witness_faultDue : State.reset.run = .running ∧ faultDue State.reset = 0 ∧
    faultDue (machine 0x00 [0x02] []) = 1 ∧ faultDue (machine 0x00 [0xFF] []) = 2 ∧
    faultDue (machine 0x00 [0xA4, 0x00, 0x07] [(7, 0x00)]) = 3 ∧ faultDue (machine 0x00 [0xA4, 0x07, 0x08] []) = 4 := by decide

/-- RunStateTransitions, PortWritesAreTheMemoryChange: steps that end Running, Halted and Faulted. -/
theorem test_witness_transitions : after (machine 0x00 [0x00] []) (fun t => t.run == .running) = true ∧
    after (machine 0x00 [0x01] []) (fun t => t.run == .halted) = true ∧
    after (machine 0x00 [0x02] []) (fun t => t.run == .faulted) = true := by decide

/-- RegistersReadAndWritten: a register not read, written (LDI) and not written (NOP); and the branch not taken reads none. -/
theorem test_witness_readRegs : (3 : Reg) ∉ readRegs 0 (.ldi 3 1) ∧ (3 : Reg) ∈ writtenRegs (.ldi 3 1) ∧
    (3 : Reg) ∉ readRegs 0 .nop ∧ (2 : Reg) ∉ readRegs 0b100 (.jeq 2) ∧ (2 : Reg) ∈ readRegs 0b001 (.jeq 2) := by decide

/-- FlagsReadAndWritten: a CMP that changes FL, another FL with the same E for a JEQ, and an instruction that reads no FL. -/
theorem test_witness_flags : after (machine 0x00 [0xA7, 0x00, 0x00] []) (fun t => t.fl != 0x00) = true ∧
    (0b100 : Byte).getLsbD 0 = State.reset.fl.getLsbD 0 ∧ ∀ r, Instr.nop ≠ .jeq r ∧ Instr.nop ≠ .jne r :=
  ⟨by decide, rfl, fun _ => ⟨nofun, nofun⟩⟩

/-- OutputWrittenByPrnOnly, MemoryWrittenByPushAndCallOnly: instructions that change `out` and memory. -/
theorem test_witness_writers : exec (.prn 7) State.reset = .next ((State.reset.emit 0xF4).setPc 0x02) ∧
    after (machine 0x00 [0x45, 0x07] []) (fun t => t.memRead 0xF3 != State.reset.memRead 0xF3) = true :=
  ⟨exec_prn State.reset 7, by decide⟩

/-- DivRule, ModRule: both divisors; ShlRule, ShrRule: the count 8. -/
theorem test_witness_alu : (machine 0x00 [] [(1, 0x01)]).reg 1 ≠ 0 ∧ (machine 0x00 [] []).reg 1 = 0 ∧
    8 ≤ ((machine 0x00 [] [(1, 0x08)]).reg 1).toNat := by decide

/-- JeqRule, JneRule: FL.E set and clear; the smallest bad index. LdiRule: the same index. -/
theorem test_witness_branches : (State.reset.setFl 0b001).fl.getLsbD 0 = true ∧ State.reset.fl.getLsbD 0 = false ∧
    7 < (0x08 : Byte).toNat ∧ ¬ 7 < (0x07 : Byte).toNat := by decide

/-- PopRule: r = 7 and r other than 7. -/
theorem test_witness_pop : (0 : Reg) ≠ 7 ∧ (7 : Reg) = 7 := by decide

/-- RetRule: the state right after a CALL still has its return address. -/
theorem test_witness_call_ret : ∃ t, exec (.call 1) State.reset = .next t ∧ t.reg 7 = t.reg 7 ∧
    t.memRead (t.reg 7) = t.memRead (t.reg 7) := ⟨_, exec_call State.reset 1, rfl, rfl⟩

/-- CanonicalMemoriesAreEqual: two memories in canonical form that read the same. -/
theorem test_witness_canonical : Mem.wf [(4, 2)] = true ∧ Mem.wf (Mem.set [] 4 2) = true ∧
    ∀ a : Addr, Mem.get [(4, 2)] a.toNat = Mem.get (Mem.set [] 4 2) a.toNat := ⟨by decide, by decide, fun _ => rfl⟩

/-- PushedByteIsFetched: pushes onto the next opcode, its first and its second operand byte. -/
theorem test_witness_pushed_fetched : after (machine 0x00 [0x45, 0x00] [(7, 0x03)]) (fun t => t.pc == t.reg 7) = true ∧
    after (machine 0x00 [0x45, 0x00] [(7, 0x04)]) (fun t => t.pc + 1 == t.reg 7) = true ∧
    after (machine 0x00 [0x45, 0x00] [(7, 0x05)]) (fun t => t.pc + 2 == t.reg 7) = true := by decide

/-- StackAboveProgramKeepsIt: the largest program below the reset stack, with a push and with a call. -/
theorem test_witness_stackAbove : StackAbove 0xF3 State.reset ∧ (0x00 : Addr).toNat < 0xF3 ∧
    (∃ t, exec (.push 0) State.reset = .next t) ∧ ∃ t, exec (.call 0) State.reset = .next t :=
  ⟨by unfold StackAbove; decide, by decide, ⟨_, exec_push State.reset 0⟩, ⟨_, exec_call State.reset 0⟩⟩

/-- ResetValues, ResetFromAnyState: a register other than x[7]; a Faulted machine to reset. -/
theorem test_witness_reset : (0 : Reg) ≠ 7 ∧ (State.reset.takeFault .divideByZero 0xA3).applyReset.run = .running := by decide

/-- JumpToItselfNeverEnds: V-JMP-2. -/
theorem test_witness_jump_to_itself : (machine 0x00 [0x54, 0x00] []).run = .running ∧
    (machine 0x00 [0x54, 0x00] []).fetch = .ok (.jmp 0) ∧
    (machine 0x00 [0x54, 0x00] []).reg 0 = (machine 0x00 [0x54, 0x00] []).pc := by decide

/-- ImageIsLoadedFromZero: the last byte of an image and the first cell after it. -/
theorem test_witness_image : (0x00 : Addr).toNat < ([0x01] : List Byte).length ∧ ([0x01] : List Byte).length ≤ (0x01 : Addr).toNat := by
  decide

/-- ProgramViewDecidesTheStep: two different states that a program cannot tell apart, and a step. -/
theorem test_witness_programView : SameProgramView State.reset ((State.reset.emit 0x05).setFl 0b100) ∧
    State.reset ≠ (State.reset.emit 0x05).setFl 0b100 ∧ step State.reset = .next (State.reset.setPc 0x01) :=
  ⟨⟨fun _ _ => rfl, rfl, rfl, fun _ => rfl, rfl⟩, by decide,
    (step_of_fetch_ok rfl (by decide : State.reset.fetch = .ok .nop)).trans (exec_nop State.reset)⟩

/-- StepKeepsTheInvariant: the invariant and a step that answers a next state. -/
theorem test_witness_invariant : (machine 0x00 [0x02] []).Inv ∧ after (machine 0x00 [0x02] []) (fun t => t.run == .faulted) = true :=
  ⟨⟨by decide, .inl (by decide +kernel), by unfold FaultRegsAgree; decide +kernel⟩, by decide +kernel⟩

end Sys2Proof.Machine.Tests
end

/-! # The family of 10_state.md: what the state holds, what each instruction reads and writes of it, and what every step keeps -/

namespace Sys2Proof

/-! ## The decoder against the spec's own tables (R65, R66, R167) -/

theorem opcodeOf_mem_definedOpcodes (op : Op) : opcodeOf op ∈ Machine.definedOpcodes := by
  cases op <;> decide

/-- The spec's list of defined opcodes is the hex column of R66. -/
theorem mem_definedOpcodes_iff {ir : Byte} : ir ∈ Machine.definedOpcodes ↔ ∃ op, ir = opcodeOf op := by
  refine ⟨fun h => ?_, fun ⟨op, h⟩ => h ▸ opcodeOf_mem_definedOpcodes op⟩
  have htable : Machine.definedOpcodes = List.map opcodeOf
      [.nop, .hlt, .ret, .push, .pop, .prn, .call, .jmp, .jeq, .jne, .not, .ldi,
       .add, .sub, .mult, .div, .mod, .cmp, .and, .or, .xor, .shl, .shr] := rfl
  obtain ⟨op, -, hop⟩ := List.mem_map.mp (htable ▸ h)
  exact ⟨op, hop.symm⟩

/-- The spec's index check, by the format of the row (R60, R65). -/
theorem badIndex_opcodeOf (op : Op) (op1 op2 : Byte) :
    Machine.badIndex (opcodeOf op) op1 op2 = match op.format with
      | .z => false
      | .r | .ri => decide (7 < op1.toNat)
      | .rr => decide (7 < op1.toNat ∨ 7 < op2.toNat) := by
  cases op <;> simp [Machine.badIndex, Machine.opcodesR, Machine.opcodesRI, Machine.opcodesRR, opcodeOf, Op.format]

@[simp] theorem toNat_regByte_le (r : Reg) : (regByte r).toNat ≤ 7 := by
  rw [toNat_regByte]
  omega

/-- Everything a defined opcode's operand bytes can decode to: an instruction of that row, spelled by those bytes, or the index fault, exactly
when the spec's index check fails (R65, R67). -/
theorem decodeOperands_cases (op : Op) (op1 op2 : Byte) :
    (∃ i, decodeOperands op op1 op2 = .ok i ∧ i.op = op ∧ i.operandBytes <+: [op1, op2] ∧
      Machine.badIndex (opcodeOf op) op1 op2 = false) ∨
    (decodeOperands op op1 op2 = .error .invalidRegisterIndex ∧ Machine.badIndex (opcodeOf op) op1 op2 = true) := by
  rw [badIndex_opcodeOf]
  cases op with
  | nop | hlt | ret => exact .inl ⟨_, rfl, rfl, List.nil_prefix, rfl⟩
  | push | pop | prn | call | jmp | jeq | jne | not =>
    obtain ⟨r, -, rfl⟩ | ⟨h, hbad⟩ := decodeReg_cases op1
    · exact .inl ⟨_, decodeR_regByte _ r, rfl, List.prefix_append [_] _, by simp [Op.format]⟩
    · exact .inr ⟨by simp [decodeOperands, decodeR, h], by simpa [Op.format] using hbad⟩
  | ldi =>
    obtain ⟨r, -, rfl⟩ | ⟨h, hbad⟩ := decodeReg_cases op1
    · exact .inl ⟨_, decodeRI_regByte _ r op2, rfl, List.prefix_rfl, by simp [Op.format]⟩
    · exact .inr ⟨by simp [decodeOperands, decodeRI, h], by simpa [Op.format] using hbad⟩
  | add | sub | mult | div | mod | cmp | and | or | xor | shl | shr =>
    obtain ⟨a, -, rfl⟩ | ⟨ha, hbad⟩ := decodeReg_cases op1
    · obtain ⟨b, -, rfl⟩ | ⟨hb, hbad⟩ := decodeReg_cases op2
      · exact .inl ⟨_, decodeRR_regByte _ a b, rfl, List.prefix_rfl, by simp [Op.format]⟩
      · exact .inr ⟨by simp [decodeOperands, decodeRR, hb], by simp [Op.format, hbad]⟩
    · exact .inr ⟨by simp only [decodeOperands, decodeRR, ha], by simp [Op.format, hbad]⟩

end Sys2Proof

namespace Sys2Proof.Machine

/-! ## The fault that is due, by what was fetched -/

/-- Everything a fetch can answer: an instruction whose bytes lie at `pc`, or the fault that the spec's tables give the bytes there. -/
theorem fetch_cases (s : State) :
    (∃ i, s.fetch = .ok i ∧ s.opcodeByte = opcodeOf i.op ∧ i.operandBytes <+: [s.operand1, s.operand2] ∧
      badIndex s.opcodeByte s.operand1 s.operand2 = false) ∨
    ∃ f, s.fetch = .error f ∧ (causeOfDecode f).code.toNat = faultDue s := by
  obtain ⟨op, hop, hdec⟩ | ⟨hundef, hdec⟩ := decode_cases s.opcodeByte s.operand1 s.operand2
  · obtain ⟨i, hi, rfl, hbytes, hgood⟩ | ⟨herr, hbad⟩ := decodeOperands_cases op s.operand1 s.operand2
    · exact .inl ⟨i, hdec.trans hi, hop, hbytes, hop ▸ hgood⟩
    · refine .inr ⟨_, hdec.trans herr, ?_⟩
      simp [faultDue, hop, opcodeOf_mem_definedOpcodes, hbad, causeOfDecode, FaultCause.code]
  · have hmem : s.opcodeByte ∉ definedOpcodes := fun h =>
      have ⟨op, hop⟩ := mem_definedOpcodes_iff.mp h
      hundef op hop
    refine .inr ⟨_, hdec, ?_⟩
    cases hflag : s.opcodeByte.getLsbD 5 <;> simp only [faultDue, if_pos hmem, aluFlag, hflag] <;> rfl

/-- DIV or MOD whose divisor register holds 0 (R107, R114). -/
def dividesByZero (s : State) : Instr → Bool
  | .div _ b | .mod _ b => decide (s.reg b = 0)
  | _ => false

/-- Among fetched instructions the spec's table finds the same zero divisors as the meanings do (R164). -/
theorem zeroDivisor_of_bytes {s : State} {i : Instr} (hop : s.opcodeByte = opcodeOf i.op)
    (hbytes : i.operandBytes <+: [s.operand1, s.operand2]) : zeroDivisor s = dividesByZero s i := by
  cases i with
  | div a b | mod a b =>
    obtain ⟨-, hb⟩ : regByte a = s.operand1 ∧ regByte b = s.operand2 := by simpa [Instr.operandBytes] using hbytes
    simp [zeroDivisor, dividesByZero, hop, Instr.op, opcodeOf, ← hb, toNat_regByte]
  | _ => simp [zeroDivisor, dividesByZero, hop, Instr.op, opcodeOf]

/-- After a fetch that decodes, a fault is due only for a division by zero. -/
theorem faultDue_of_fetch_ok {s : State} {i : Instr} (h : s.fetch = .ok i) :
    faultDue s = if dividesByZero s i then 3 else 0 := by
  obtain ⟨j, hj, hop, hbytes, hgood⟩ | ⟨f, hf, -⟩ := fetch_cases s
  · obtain rfl : j = i := Except.ok.inj (hj.symm.trans h)
    have hmem : s.opcodeByte ∈ definedOpcodes := hop ▸ opcodeOf_mem_definedOpcodes j.op
    simp [faultDue, hmem, hgood, zeroDivisor_of_bytes hop hbytes]
  · exact nomatch hf.symm.trans h

/-- A fetch that is rejected raises the cause that is due. -/
theorem code_eq_faultDue_of_fetch_error {s : State} {f : DecodeFault} (h : s.fetch = .error f) :
    (causeOfDecode f).code.toNat = faultDue s := by
  obtain ⟨i, hi, -⟩ | ⟨g, hg, hdue⟩ := fetch_cases s
  · exact nomatch hi.symm.trans h
  · obtain rfl : g = f := Except.error.inj (hg.symm.trans h)
    exact hdue

theorem opcodeByte_of_fetch_ok {s : State} {i : Instr} (h : s.fetch = .ok i) : s.opcodeByte = opcodeOf i.op := by
  obtain ⟨j, hj, hop, -⟩ | ⟨f, hf, -⟩ := fetch_cases s
  · obtain rfl : j = i := Except.ok.inj (hj.symm.trans h)
    exact hop
  · exact nomatch hf.symm.trans h

/-! ## Every instruction's next state, field by field -/

/-- The state an instruction leads to, as updates of the state it starts from. -/
def effect (s : State) : Instr → State
  | .nop => s.setPc (s.pc + 1)
  | .hlt => (s.setPc (s.pc + 1)).setRun .halted
  | .ret => (s.setPc (s.memRead (s.reg 7))).setReg 7 (s.reg 7 + 1)
  | .push r => ((s.setReg 7 (s.reg 7 - 1)).memWrite (s.reg 7 - 1) (if r = 7 then s.reg 7 - 1 else s.reg r)).setPc (s.pc + 2)
  | .pop r => ((s.setReg r (s.memRead (s.reg 7))).setReg 7
      ((if r = 7 then s.memRead (s.reg 7) else s.reg 7) + 1)).setPc (s.pc + 2)
  | .prn r => (s.emit (s.reg r)).setPc (s.pc + 2)
  | .call r => ((s.setReg 7 (s.reg 7 - 1)).memWrite (s.reg 7 - 1) (s.pc + 2)).setPc (if r = 7 then s.reg 7 - 1 else s.reg r)
  | .jmp r => s.setPc (s.reg r)
  | .jeq r => s.setPc (if flagE s.fl then s.reg r else s.pc + 2)
  | .jne r => s.setPc (if flagE s.fl then s.pc + 2 else s.reg r)
  | .not a => (s.setReg a (~~~(s.reg a))).setPc (s.pc + 2)
  | .ldi r v => (s.setReg r v).setPc (s.pc + 3)
  | .add a b => (s.setReg a (wrap (val (s.reg a) + val (s.reg b)))).setPc (s.pc + 3)
  | .sub a b => (s.setReg a (wrap (val (s.reg a) - val (s.reg b)))).setPc (s.pc + 3)
  | .mult a b => (s.setReg a (wrap (val (s.reg a) * val (s.reg b)))).setPc (s.pc + 3)
  | .div a b =>
    if s.reg b = 0 then s.takeFault .divideByZero 0xA3
    else (s.setReg a (wrap (val (s.reg a) / val (s.reg b)))).setPc (s.pc + 3)
  | .mod a b =>
    if s.reg b = 0 then s.takeFault .divideByZero 0xA4
    else (s.setReg a (wrap (val (s.reg a) % val (s.reg b)))).setPc (s.pc + 3)
  | .cmp a b => (s.setFl (compareFlags (s.reg a) (s.reg b))).setPc (s.pc + 3)
  | .and a b => (s.setReg a (s.reg a &&& s.reg b)).setPc (s.pc + 3)
  | .or a b => (s.setReg a (s.reg a ||| s.reg b)).setPc (s.pc + 3)
  | .xor a b => (s.setReg a (s.reg a ^^^ s.reg b)).setPc (s.pc + 3)
  | .shl a b => (s.setReg a (wrap (val (s.reg a) * 2 ^ (s.reg b).toNat))).setPc (s.pc + 3)
  | .shr a b => (s.setReg a (wrap (val (s.reg a) / 2 ^ (s.reg b).toNat))).setPc (s.pc + 3)

/-- Every instruction answers a next state, the one `effect` names: the equations of Laws/Exec.lean in one statement. -/
theorem exec_eq_next (i : Instr) (s : State) : exec i s = .next (effect s i) := by
  cases i with
  | nop => exact exec_nop s
  | hlt => exact exec_hlt s
  | ret => exact exec_ret s
  | push r => exact exec_push s r
  | pop r => exact exec_pop s r
  | prn r => exact exec_prn s r
  | call r => exact exec_call s r
  | jmp r => exact exec_jmp s r
  | jeq r => exact exec_jeq s r
  | jne r => exact exec_jne s r
  | not a => exact exec_not s a
  | ldi r v => exact exec_ldi s r v
  | add a b => exact exec_add s a b
  | sub a b => exact exec_sub s a b
  | mult a b => exact exec_mult s a b
  | div a b => exact (exec_div s a b).trans (apply_ite Host.Outcome.next _ _ _).symm
  | mod a b => exact (exec_mod s a b).trans (apply_ite Host.Outcome.next _ _ _).symm
  | cmp a b => exact exec_cmp s a b
  | and a b => exact exec_and s a b
  | or a b => exact exec_or s a b
  | xor a b => exact exec_xor s a b
  | shl a b => exact exec_shl s a b
  | shr a b => exact exec_shr s a b

theorem eq_effect_of_exec {i : Instr} {s t : State} (h : exec i s = .next t) : t = effect s i :=
  Host.Outcome.next.inj (h.symm.trans (exec_eq_next i s))

section Fields

variable (s : State) (i : Instr)

/-- A division by zero takes the fault and does nothing else (R164, R165). -/
theorem effect_of_dividesByZero (h : dividesByZero s i = true) :
    effect s i = s.takeFault .divideByZero (opcodeOf i.op) := by
  cases i with
  | div a b | mod a b => exact if_pos (of_decide_eq_true h)
  | _ => cases h

/-- FL after every instruction (R18). -/
theorem effect_fl : (effect s i).fl = match i with
    | .cmp a b => compareFlags (s.reg a) (s.reg b)
    | _ => s.fl := by
  cases i with
  | div a b | mod a b => simp only [effect]; split <;> rfl
  | _ => rfl

/-- The run state after every instruction (R20, R86, R165). -/
theorem effect_run : (effect s i).run =
    if i = .hlt then .halted else if dividesByZero s i then .faulted else s.run := by
  cases i with
  | div a b | mod a b => simp [effect, dividesByZero, apply_ite State.run]
  | _ => rfl

/-- Without a fault the fault registers are kept (R21). -/
theorem effect_sameFaultRegs (h : dividesByZero s i = false) : SameFaultRegs s (effect s i) := by
  cases i with
  | div a b | mod a b =>
    simp only [effect, if_neg (of_decide_eq_false h)]
    exact ⟨rfl, rfl, rfl⟩
  | _ => exact ⟨rfl, rfl, rfl⟩

/-- The output trace after every instruction: what the output port carried is appended (R23, R31). -/
theorem effect_out : (effect s i).out = s.out ++ (outputPulse i s).toList := by
  cases i with
  | prn r => rfl
  | div a b | mod a b => simp only [effect]; split <;> exact (List.append_nil _).symm
  | _ => exact (List.append_nil _).symm

/-- Memory after every instruction: the data accesses applied (R30, R45). -/
theorem effect_mem : (effect s i).mem = (dataAccesses i s).foldl Access.apply s.mem := by
  cases i with
  | push r | call r => simp [effect, dataAccesses, Access.apply]
  | div a b | mod a b => simp only [effect]; split <;> rfl
  | _ => rfl

/-- `pc` after every instruction (R15). -/
theorem effect_pc : (effect s i).pc.toNat = pcAfter i s := by
  cases i with
  | jmp r | ret => rfl
  | jeq r | jne r => simp [effect, pcAfter, flagE, apply_ite BitVec.toNat]
  | call r =>
    simp only [effect, pcAfter, setPc_pc]
    split
    · bv_omega
    · rfl
  | div a b | mod a b => simp only [effect, pcAfter]; split <;> simp
  | _ => simp [effect, pcAfter]

/-- An instruction writes no register but those its row names (R12). -/
theorem effect_sameRegsExcept : SameRegsExcept (writtenRegs i) s (effect s i) := by
  intro q hq
  cases i with
  | div a b | mod a b =>
    simp only [effect]
    split
    · rfl
    · exact reg_setReg_of_ne s (by simpa [writtenRegs] using hq) _
  | _ => simp_all [effect, writtenRegs, reg_setReg]

end Fields

/-! ## What a step can do, by the fault that is due -/

/-- HLT has no operand byte: its opcode decodes whatever follows (R60, R66). -/
theorem fetch_of_hlt {s : State} (h : s.opcodeByte = 0x01) : s.fetch = .ok .hlt := by
  rw [State.fetch, h]
  exact decode_opcodeOf .hlt _ _

/-- Everything a step can do when it answers a next state: take the fault that is due and nothing else (R164, R165), or, with no fault due,
run the fetched instruction (R80). -/
theorem step_cases_by_fault {s t : State} (h : step s = .next t) : s.run = .running ∧
    ((∃ c : FaultCause, c.code.toNat = faultDue s ∧ t = s.takeFault c s.opcodeByte) ∨
      ∃ i, s.fetch = .ok i ∧ dividesByZero s i = false ∧ faultDue s = 0 ∧ t = effect s i) := by
  obtain ⟨hrun, ⟨i, hfetch, hexec⟩ | ⟨f, hfetch, rfl⟩⟩ := step_cases h
  · have hdue := faultDue_of_fetch_ok hfetch
    obtain rfl := eq_effect_of_exec hexec
    cases hz : dividesByZero s i with
    | true =>
      rw [effect_of_dividesByZero s i hz, ← opcodeByte_of_fetch_ok hfetch]
      exact ⟨hrun, .inl ⟨.divideByZero, by simp [hdue, hz, FaultCause.code], rfl⟩⟩
    | false => exact ⟨hrun, .inr ⟨i, hfetch, hz, by simp [hdue, hz], rfl⟩⟩
  · exact ⟨hrun, .inl ⟨_, code_eq_faultDue_of_fetch_error hfetch, rfl⟩⟩

theorem FaultCause.code_toNat_ne_zero (c : FaultCause) : c.code.toNat ≠ 0 := by
  cases c <;> decide

/-- The opcode byte of an instruction is HLT's for HLT alone (R66). -/
theorem opcodeOf_eq_hlt_iff (i : Instr) : opcodeOf i.op = 0x01 ↔ i = .hlt := by
  refine ⟨fun h => ?_, fun h => h ▸ rfl⟩
  have hop : i.op = .hlt := opcodeOf_injective h
  cases i with
  | hlt => rfl
  | _ => cases hop

/-! ## The invariant (R17, R21, R165) -/

theorem compareFlags_legal (va vb : Byte) : FlLegal (compareFlags va vb) := by
  unfold compareFlags FlLegal
  split
  · simp
  · split <;> simp

/-- Every instruction leaves a legal FL (R17, R18). -/
theorem effect_fl_legal {s : State} (i : Instr) (h : FlLegal s.fl) : FlLegal (effect s i).fl := by
  rw [effect_fl]
  cases i with
  | cmp a b => exact compareFlags_legal _ _
  | _ => exact h

/-- Accesses on the memory port keep the canonical form. -/
theorem foldl_apply_wf {m : Mem} (h : Mem.wf m = true) (l : List Access) : Mem.wf (l.foldl Access.apply m) = true := by
  induction l generalizing m with
  | nil => exact h
  | cons x l ih =>
    cases x with
    | read a => exact ih h
    | write a v => exact ih (Mem.wf_set h a v)

/-- Taking the fault that is due makes the fault registers agree: the state the fault leaves still shows it. -/
theorem takeFault_faultRegsAgree {s : State} {c : FaultCause} (h : c.code.toNat = faultDue s) :
    FaultRegsAgree (s.takeFault c s.opcodeByte) :=
  (if_pos rfl).mpr ⟨rfl, rfl, h, h ▸ c.code_toNat_ne_zero⟩

/-- The fault registers stay 0 from a state that has not faulted to another. -/
theorem faultRegsAgree_of_sameFaultRegs {s t : State} (h : FaultRegsAgree s) (hs : s.run ≠ .faulted) (ht : t.run ≠ .faulted)
    (hsame : SameFaultRegs s t) : FaultRegsAgree t := by
  obtain ⟨hcause, hpc, hir⟩ := hsame
  simpa [FaultRegsAgree, hs, ht, hcause, hpc, hir] using h

/-- Settles O55: a step takes the fault that is due, after which the unchanged state still shows it, or runs an instruction, which
keeps each part of the invariant. -/
theorem stepKeepsTheInvariant : Obligations.StepKeepsTheInvariant := by
  unfold Obligations.StepKeepsTheInvariant
  intro s t ⟨hmem, hfl, hregs⟩ hstep
  obtain ⟨hrun, ⟨c, hcause, rfl⟩ | ⟨i, -, hz, -, rfl⟩⟩ := step_cases_by_fault hstep
  · exact ⟨hmem, hfl, takeFault_faultRegsAgree hcause⟩
  · have hnot : (effect s i).run ≠ .faulted := by
      rw [effect_run, hz, hrun]
      split <;> simp
    exact ⟨effect_mem s i ▸ foldl_apply_wf hmem _, effect_fl_legal i hfl,
      faultRegsAgree_of_sameFaultRegs hregs (by simp [hrun]) hnot (effect_sameFaultRegs s i hz)⟩

/-- Settles O11: a fault that is due is taken, and HLT's opcode byte, which always decodes, is never one of those; with no fault due,
`effect_run` says which instruction ends the run. -/
theorem runStateTransitions : Obligations.RunStateTransitions := by
  unfold Obligations.RunStateTransitions
  intro s t hstep
  obtain ⟨hrun, ⟨c, hcause, rfl⟩ | ⟨i, hfetch, hz, hdue, rfl⟩⟩ := step_cases_by_fault hstep
  · have hdue : faultDue s ≠ 0 := hcause ▸ c.code_toNat_ne_zero
    have hnot : s.opcodeByte ≠ 0x01 := fun h => hdue (faultDue_of_fetch_ok (fetch_of_hlt h))
    exact ⟨hrun, by simpa using hnot, by simpa using hdue⟩
  · rw [effect_run, hz, hrun, opcodeByte_of_fetch_ok hfetch, opcodeOf_eq_hlt_iff, hdue]
    refine ⟨rfl, ?_⟩
    by_cases hi : i = .hlt <;> simp [hi]

/-- Settles O12: `effect_pc` for the instructions; a fault at decode keeps `pc`. -/
theorem pcAfterEveryInstruction : Obligations.PcAfterEveryInstruction := by
  unfold Obligations.PcAfterEveryInstruction
  refine ⟨fun i s => ⟨_, exec_eq_next i s, effect_pc s i⟩, fun s t hstep => ?_⟩
  obtain ⟨-, ⟨i, hfetch, hexec⟩ | ⟨f, hfetch, rfl⟩⟩ := step_cases hstep
  · refine ⟨fun j hj => ?_, fun f hf => nomatch hf.symm.trans hfetch⟩
    obtain rfl : j = i := Except.ok.inj (hj.symm.trans hfetch)
    rw [eq_effect_of_exec hexec, effect_pc]
  · exact ⟨fun j hj => (nomatch hj.symm.trans hfetch), fun _ _ => rfl⟩

/-- Settles O15: what is appended is what the output port carries, and PRN alone drives it. -/
theorem outputWrittenByPrnOnly : Obligations.OutputWrittenByPrnOnly := by
  unfold Obligations.OutputWrittenByPrnOnly
  intro i s t hexec
  obtain rfl := eq_effect_of_exec hexec
  have hout := effect_out s i
  refine ⟨fun r hr => by rw [hout, hr]; rfl, fun hne => ?_⟩
  cases i with
  | prn r => exact ⟨r, rfl⟩
  | _ => exact absurd (hout.trans (List.append_nil _)) hne

/-! ## Non-interference of registers (R12) and of FL (R18) -/

theorem setReg_setReg (s : State) (r : Reg) (v w : Byte) : (s.setReg r v).setReg r w = s.setReg r w := by
  simp [State.setReg]

theorem setReg_comm (s : State) {q r : Reg} (h : q ≠ r) (v w : Byte) :
    (s.setReg q v).setReg r w = (s.setReg r w).setReg q v := by
  simp only [State.setReg]
  rw [Vector.set_comm]
  exact fun e => h (Fin.ext e)

/-- An instruction that writes a register it does not read (LDI, POP) leads to the same state whatever was there. -/
theorem effect_setReg_of_written {s : State} {i : Instr} {q : Reg} (hread : q ∉ readRegs s.fl i) (hwritten : q ∈ writtenRegs i)
    (v : Byte) : effect (s.setReg q v) i = effect s i := by
  cases i with
  | ldi r w =>
    obtain rfl : q = r := by simpa [writtenRegs] using hwritten
    simp only [effect, setReg_setReg, setReg_pc]
  | pop r =>
    have hsp : 7 ≠ q := by simpa [readRegs, eq_comm] using hread
    obtain rfl : q = r := by simpa [writtenRegs, hsp.symm] using hwritten
    simp only [effect, setReg_setReg, setReg_pc, reg_setReg_of_ne s hsp, setReg_memRead]
  | _ => simp_all [readRegs, writtenRegs]

/-- A register that an instruction neither reads nor writes is carried through it. -/
theorem effect_setReg_of_not_written {s : State} {i : Instr} {q : Reg} (hread : q ∉ readRegs s.fl i)
    (hwritten : q ∉ writtenRegs i) (v : Byte) : effect (s.setReg q v) i = (effect s i).setReg q v := by
  cases i with
  | nop | hlt => rfl
  | prn r | jmp r =>
    have hr : q ≠ r := by simpa [readRegs] using hread
    simp only [effect, reg_setReg_of_ne s hr.symm]
    rfl
  | jeq r =>
    have hr : flagE s.fl = true → q ≠ r := by simpa [readRegs, flagE] using hread
    cases he : flagE s.fl with
    | true => simp only [effect, setReg_fl, he, reg_setReg_of_ne s (hr he).symm]; rfl
    | false => simp only [effect, setReg_fl, he]; rfl
  | jne r =>
    have hr : flagE s.fl = false → q ≠ r := by simpa [readRegs, flagE] using hread
    cases he : flagE s.fl with
    | true => simp only [effect, setReg_fl, he]; rfl
    | false => simp only [effect, setReg_fl, he, reg_setReg_of_ne s (hr he).symm]; rfl
  | ldi r w =>
    have hr : q ≠ r := by simpa [writtenRegs] using hwritten
    simp only [effect, setReg_comm s hr]
    rfl
  | not r =>
    have hr : q ≠ r := by simpa [readRegs] using hread
    simp only [effect, reg_setReg_of_ne s hr.symm, setReg_comm s hr]
    rfl
  | cmp a b =>
    obtain ⟨ha, hb⟩ : q ≠ a ∧ q ≠ b := by simpa [readRegs] using hread
    simp only [effect, reg_setReg_of_ne s ha.symm, reg_setReg_of_ne s hb.symm]
    rfl
  | add a b | sub a b | mult a b | and a b | or a b | xor a b | shl a b | shr a b =>
    obtain ⟨ha, hb⟩ : q ≠ a ∧ q ≠ b := by simpa [readRegs] using hread
    simp only [effect, reg_setReg_of_ne s ha.symm, reg_setReg_of_ne s hb.symm, setReg_comm s ha]
    rfl
  | div a b | mod a b =>
    obtain ⟨ha, hb⟩ : q ≠ a ∧ q ≠ b := by simpa [readRegs] using hread
    simp only [effect, reg_setReg_of_ne s ha.symm, reg_setReg_of_ne s hb.symm, setReg_comm s ha]
    split <;> rfl
  | ret =>
    have hsp : q ≠ 7 := by simpa [readRegs] using hread
    simp only [effect, reg_setReg_of_ne s hsp.symm]
    exact setReg_comm (s.setPc (s.memRead (s.reg 7))) hsp v (s.reg 7 + 1)
  | push r | call r =>
    obtain ⟨hsp, hr⟩ : q ≠ 7 ∧ q ≠ r := by simpa [readRegs] using hread
    simp only [effect, reg_setReg_of_ne s hsp.symm, reg_setReg_of_ne s hr.symm, setReg_comm s hsp]
    rfl
  | pop r =>
    obtain ⟨hr, hsp⟩ : q ≠ r ∧ q ≠ 7 := by simpa [writtenRegs] using hwritten
    simp only [effect, reg_setReg_of_ne s hsp.symm, setReg_comm _ hr, setReg_comm _ hsp]
    rfl

/-- Another FL of which the instruction sees the same: CMP overwrites it, the others carry it through (R18). -/
theorem effect_setFl {s : State} {i : Instr} {v : Byte}
    (hv : v.getLsbD 0 = s.fl.getLsbD 0 ∨ ∀ r, i ≠ .jeq r ∧ i ≠ .jne r) :
    effect (s.setFl v) i = match i with
      | .cmp _ _ => effect s i
      | _ => (effect s i).setFl v := by
  cases i with
  | jeq r | jne r =>
    have he : flagE v = flagE s.fl := by simpa [flagE] using hv
    simp only [effect, setFl_fl, he]
    rfl
  | div a b | mod a b => by_cases hb : s.reg b = 0 <;> simp only [effect, setFl_reg, hb, ↓reduceIte] <;> rfl
  | _ => rfl

/-- Settles O13: another value in a register that is not read is either overwritten or carried through. -/
theorem registersReadAndWritten : Obligations.RegistersReadAndWritten := by
  unfold Obligations.RegistersReadAndWritten
  intro i s
  refine ⟨_, exec_eq_next i s, effect_sameRegsExcept s i, fun q v hread => ⟨_, exec_eq_next i _, ?_⟩⟩
  by_cases hwritten : q ∈ writtenRegs i
  · rw [effect_setReg_of_written hread hwritten]
    exact ⟨fun _ _ => rfl, fun _ => rfl, rfl, rfl, fun _ => rfl, rfl, rfl, rfl, rfl, rfl⟩
  · rw [effect_setReg_of_not_written hread hwritten]
    exact ⟨fun r hr => reg_setReg_of_ne _ (by simpa using hr) v, fun h => absurd h hwritten,
      rfl, rfl, fun _ => rfl, rfl, rfl, rfl, rfl, rfl⟩

/-- Settles O14: another FL with the same E is replaced by CMP and carried through by the others. -/
theorem flagsReadAndWritten : Obligations.FlagsReadAndWritten := by
  unfold Obligations.FlagsReadAndWritten
  intro i s
  refine ⟨_, exec_eq_next i s, fun hne => ?_, fun v hv => ?_⟩
  · have hfl := effect_fl s i
    cases i with
    | cmp a b => exact ⟨a, b, rfl⟩
    | _ => exact absurd hfl hne
  · rw [exec_eq_next, effect_setFl hv]
    cases i <;> rfl

/-! ## What a program can see (R22) -/

namespace SameProgramView

variable {s u : State} (h : SameProgramView s u)
include h

theorem reg_eq (r : Reg) : u.reg r = s.reg r := by
  obtain ⟨hregs, -⟩ := h
  exact hregs r List.not_mem_nil

theorem pc_eq : u.pc = s.pc := by
  obtain ⟨-, hpc, -⟩ := h
  exact hpc

theorem flagE_eq : flagE u.fl = flagE s.fl := by
  obtain ⟨-, -, hfl, -⟩ := h
  exact hfl

theorem memRead_eq (a : Addr) : u.memRead a = s.memRead a := by
  obtain ⟨-, -, -, hmem, -⟩ := h
  exact hmem a

theorem run_eq : u.run = s.run := by
  obtain ⟨-, -, -, -, hrun⟩ := h
  exact hrun

/-- The two machines fetch the same (R81). -/
theorem fetch_eq : u.fetch = s.fetch := by
  simp only [State.fetch, State.opcodeByte, State.operand1, State.operand2, h.pc_eq, h.memRead_eq]

/-! Every operation of the state keeps the view, given the same arguments. -/

theorem setReg (r : Reg) (v : Byte) : SameProgramView (s.setReg r v) (u.setReg r v) :=
  ⟨fun q _ => by simp only [reg_setReg, h.reg_eq], h.2⟩

theorem setPc (t : Addr) : SameProgramView (s.setPc t) (u.setPc t) :=
  ⟨h.1, rfl, h.2.2⟩

theorem setFl (v : Byte) : SameProgramView (s.setFl v) (u.setFl v) :=
  ⟨h.1, h.pc_eq, rfl, h.memRead_eq, h.run_eq⟩

theorem setRun (v : RunState) : SameProgramView (s.setRun v) (u.setRun v) :=
  ⟨h.1, h.pc_eq, h.flagE_eq, h.memRead_eq, rfl⟩

theorem memWrite (a : Addr) (v : Byte) : SameProgramView (s.memWrite a v) (u.memWrite a v) :=
  ⟨h.1, h.pc_eq, h.flagE_eq, fun b => by simp only [memRead_memWrite, h.memRead_eq], h.run_eq⟩

/-- The output trace is no part of the view. -/
theorem emit (v : Byte) : SameProgramView (s.emit v) (u.emit v) := h

theorem takeFault (c : FaultCause) (ir : Byte) : SameProgramView (s.takeFault c ir) (u.takeFault c ir) :=
  ⟨h.1, h.pc_eq, h.flagE_eq, h.memRead_eq, rfl⟩

/-- Every instruction keeps the view: what it writes is a function of what the program sees. -/
theorem effect_congr (i : Instr) : SameProgramView (effect s i) (effect u i) := by
  cases i with
  | nop | jmp r | jeq r | jne r =>
    simp only [effect, h.reg_eq, h.pc_eq, h.flagE_eq]
    exact h.setPc _
  | hlt =>
    simp only [effect, h.pc_eq]
    exact (h.setPc _).setRun _
  | ret =>
    simp only [effect, h.reg_eq, h.memRead_eq]
    exact (h.setPc _).setReg _ _
  | push r | call r =>
    simp only [effect, h.reg_eq, h.pc_eq]
    exact ((h.setReg _ _).memWrite _ _).setPc _
  | pop r =>
    simp only [effect, h.reg_eq, h.memRead_eq, h.pc_eq]
    exact ((h.setReg _ _).setReg _ _).setPc _
  | prn r =>
    simp only [effect, h.reg_eq, h.pc_eq]
    exact (h.emit _).setPc _
  | cmp a b =>
    simp only [effect, h.reg_eq, h.pc_eq]
    exact (h.setFl _).setPc _
  | div a b | mod a b =>
    simp only [effect, h.reg_eq, h.pc_eq]
    split
    · exact h.takeFault _ _
    · exact (h.setReg _ _).setPc _
  | not a | ldi r v | add a b | sub a b | mult a b | and a b | or a b | xor a b | shl a b | shr a b =>
    simp only [effect, h.reg_eq, h.pc_eq]
    exact (h.setReg _ _).setPc _

/-- The output port carries the same value (R31). -/
theorem outputPulse_eq (i : Instr) : outputPulse i u = outputPulse i s := by
  cases i with
  | prn r => exact congrArg some (h.reg_eq r)
  | _ => rfl

end SameProgramView

/-- Settles O53: the two machines fetch alike, and each operation of the step keeps the view. -/
theorem programViewDecidesTheStep : Obligations.ProgramViewDecidesTheStep := by
  unfold Obligations.ProgramViewDecidesTheStep
  intro s u s' h hstep
  obtain ⟨hrun, ⟨i, hfetch, hexec⟩ | ⟨f, hfetch, rfl⟩⟩ := step_cases hstep
  · obtain rfl := eq_effect_of_exec hexec
    refine ⟨effect u i, ?_, h.effect_congr i, (outputPulse i s).toList, effect_out s i, ?_⟩
    · rw [step_of_fetch_ok (h.run_eq.trans hrun) (h.fetch_eq.trans hfetch), exec_eq_next]
    · rw [effect_out, h.outputPulse_eq]
  · have hbyte : u.opcodeByte = s.opcodeByte := by simp only [State.opcodeByte, h.pc_eq, h.memRead_eq]
    refine ⟨u.takeFault (causeOfDecode f) s.opcodeByte, ?_, h.takeFault _ _, [], by simp, by simp⟩
    rw [step_of_fetch_error (h.run_eq.trans hrun) (h.fetch_eq.trans hfetch), hbyte]

/-! ## The memory port (R30, R46) -/

/-- No fetch access is a write. -/
theorem write_not_mem_fetchAccesses (s : State) (a : Addr) (v : Byte) : .write a v ∉ fetchAccesses s := by
  unfold fetchAccesses fetchReads
  split
  · split <;> split <;> simp
  · simp

/-- Accesses none of which is a write leave memory as it is (R42). -/
theorem foldl_apply_of_no_write (m : Mem) {l : List Access} (h : ∀ a v, .write a v ∉ l) : l.foldl Access.apply m = m := by
  induction l generalizing m with
  | nil => rfl
  | cons x l ih =>
    cases x with
    | read a => exact ih m fun b v hmem => h b v (List.mem_cons_of_mem _ hmem)
    | write a v => exact absurd List.mem_cons_self (h a v)

/-- An instruction that faults has no data access (R164). -/
theorem dataAccesses_of_dividesByZero {s : State} {i : Instr} (h : dividesByZero s i = true) : dataAccesses i s = [] := by
  cases i with
  | div a b | mod a b => rfl
  | _ => cases h

/-- The accesses of a step: those of the fetch, then the data accesses of what it fetched. -/
theorem stepAccesses_of_fetch_ok {s : State} {i : Instr} (hrun : s.run = .running) (h : s.fetch = .ok i) :
    stepAccesses s = fetchAccesses s ++ dataAccesses i s := by
  simp [stepAccesses, hrun, h]

theorem stepAccesses_of_fetch_error {s : State} {f : DecodeFault} (hrun : s.run = .running) (h : s.fetch = .error f) :
    stepAccesses s = fetchAccesses s := by
  simp [stepAccesses, hrun, h]

/-- Settles O51: the fetch accesses write nothing and the data accesses are the instruction's change of memory; an instruction that faults
has none. -/
theorem portWritesAreTheMemoryChange : Obligations.PortWritesAreTheMemoryChange := by
  unfold Obligations.PortWritesAreTheMemoryChange
  intro s t hstep
  have hreads := write_not_mem_fetchAccesses s
  obtain ⟨hrun, ⟨i, hfetch, hexec⟩ | ⟨f, hfetch, rfl⟩⟩ := step_cases hstep
  · obtain rfl := eq_effect_of_exec hexec
    rw [stepAccesses_of_fetch_ok hrun hfetch, List.foldl_append, foldl_apply_of_no_write _ hreads]
    refine ⟨effect_mem s i, fun hfaulted => ?_⟩
    have hz : dividesByZero s i = true := by
      by_contra hz
      rw [effect_run, hrun, if_neg hz] at hfaulted
      split at hfaulted <;> cases hfaulted
    simpa [dataAccesses_of_dividesByZero hz] using hreads
  · rw [stepAccesses_of_fetch_error hrun hfetch]
    exact ⟨(foldl_apply_of_no_write _ hreads).symm, fun _ => hreads⟩

/-! ## Reset and the status port (R25, R32) -/

theorem resetOver_reg (m : Mem) (r : Reg) : (State.resetOver m).reg r = if r = 7 then 0xF4 else 0x00 := by
  fin_cases r <;> rfl

/-- Memory after boot is MEM_INIT (R193). -/
theorem boot_memRead (init : Addr → Byte) (a : Addr) : (State.boot init).memRead a = init a := by
  have hlt : a.toNat < 0 + Config.core.memSize := by
    rw [Nat.zero_add]
    exact a.isLt
  exact (Mem.get_fill init (Nat.zero_le _) hlt (Nat.zero_add _).le).trans (congrArg init (by simp))

/-- Settles O44. Memory is the one value that depends on MEM_INIT. -/
theorem resetValues : Obligations.ResetValues := by
  unfold Obligations.ResetValues
  intro init
  exact ⟨rfl, resetOver_reg _ 7, fun r hr => (resetOver_reg _ r).trans (if_neg hr), rfl, rfl, rfl, rfl, rfl, rfl,
    boot_memRead init⟩

/-- Settles O52: both outputs are decisions on `run`. -/
theorem statusPort : Obligations.StatusPort := by
  unfold Obligations.StatusPort
  exact fun s => ⟨decide_eq_true_iff, decide_eq_true_iff⟩

/-- Settles O54: nothing has faulted, so the fault registers have to be 0, and they are. -/
theorem resetHasTheInvariant : Obligations.ResetHasTheInvariant := by
  unfold Obligations.ResetHasTheInvariant
  exact ⟨Mem.wf_reset, .inl rfl, (if_neg (by decide)).mpr ⟨rfl, rfl, rfl⟩⟩

end Sys2Proof.Machine

/-! # The family of 20_memory.md: what memory holds, who writes it, and the order of a step's accesses -/

namespace Sys2Proof.Machine

/-! ## Who writes memory (R45) -/

/-- A cell that no access of a list writes reads after them as before (R43). -/
theorem get_foldl_apply_of_not_written (m : Mem) {l : List Access} {a : Addr} (h : ∀ v, .write a v ∉ l) :
    Mem.get (l.foldl Access.apply m) a.toNat = Mem.get m a.toNat := by
  induction l generalizing m with
  | nil => rfl
  | cons x l ih =>
    have htail : ∀ v, .write a v ∉ l := fun v hv => h v (List.mem_cons_of_mem _ hv)
    rw [List.foldl_cons, ih _ htail]
    cases x with
    | read b => rfl
    | write b v =>
      have hne : a.toNat ≠ b.toNat := fun e => h v (BitVec.eq_of_toNat_eq e ▸ List.mem_cons_self)
      rw [Access.apply, Mem.get_set, if_neg hne]

/-- The data writes of all instructions: one of PUSH and one of CALL, at the decremented stack pointer (R45, R141). -/
theorem write_mem_dataAccesses {i : Instr} {s : State} {a : Addr} {v : Byte} (h : .write a v ∈ dataAccesses i s) :
    (∃ r, i = .push r ∨ i = .call r) ∧ a = s.reg 7 - 1 := by
  cases i with
  | push r | call r =>
    obtain ⟨ha, -⟩ : a = s.reg 7 - 1 ∧ _ := by simpa [dataAccesses] using h
    exact ⟨⟨r, by simp⟩, ha⟩
  | _ => simp [dataAccesses] at h

/-- Settles O16: a cell that changes is one that a data access writes. -/
theorem memoryWrittenByPushAndCallOnly : Obligations.MemoryWrittenByPushAndCallOnly := by
  unfold Obligations.MemoryWrittenByPushAndCallOnly
  intro i s t a hexec hchanged
  obtain rfl := eq_effect_of_exec hexec
  obtain ⟨v, hwrite⟩ : ∃ v, .write a v ∈ dataAccesses i s := by
    by_contra hnone
    rw [State.memRead, effect_mem] at hchanged
    exact hchanged (get_foldl_apply_of_not_written _ (not_exists.mp hnone))
  obtain ⟨hinstr, rfl⟩ := write_mem_dataAccesses hwrite
  exact ⟨hinstr, by bv_omega⟩

/-! ## What a cell reads after many writes (R42, R43) -/

/-- After a list of writes a cell reads as the last value written to it, or as before if there is none. -/
theorem memRead_foldl_memWrite (s : State) (writes : List (Addr × Byte)) (a : Addr) :
    (writes.foldl (fun s w => s.memWrite w.1 w.2) s).memRead a =
      (writes.reverse.find? (fun w => w.1 == a)).elim (s.memRead a) Prod.snd := by
  induction writes using List.reverseRecOn with
  | nil => rfl
  | append_singleton writes w ih =>
    rw [List.foldl_append, List.reverse_append, List.foldl_cons, List.foldl_nil, memRead_memWrite, ih]
    by_cases hw : w.1 = a
    · simp [hw]
    · simp [hw, Ne.symm hw]

/-- Settles O40: the list of writes over the memory of MEM_INIT. -/
theorem memoryReadsLatestWrite : Obligations.MemoryReadsLatestWrite := by
  unfold Obligations.MemoryReadsLatestWrite
  intro init writes a
  rw [memRead_foldl_memWrite, boot_memRead]
  cases writes.reverse.find? (fun w => w.1 == a) with
  | none => rfl
  | some w => rfl

/-! ## The canonical form determines the list (R40, R51) -/

/-- The lowest listed cell lies no lower than any bound of a memory that reads the same: below its bound that memory reads as unlisted. -/
theorem Mem.bound_le_head {lo lo' k : Nat} {v : Byte} {m m' : Mem} (h : Mem.wfFrom lo ((k, v) :: m) = true)
    (h' : Mem.wfFrom lo' m' = true) (hread : ∀ j < Config.core.memSize, Mem.get ((k, v) :: m) j = Mem.get m' j) : lo' ≤ k := by
  obtain ⟨-, hsize, hv, -⟩ := Mem.wfFrom_cons.mp h
  by_contra hlt
  have hk : v = Mem.get m' k := by simpa [Mem.get] using hread k hsize
  exact hv (hk.trans (Mem.get_below (Nat.lt_of_not_le hlt) h'))

/-- Two memories in canonical form that read the same at every address are the same list. -/
theorem Mem.eq_of_get_eq {lo : Nat} {m m' : Mem} (h : Mem.wfFrom lo m = true) (h' : Mem.wfFrom lo m' = true)
    (hread : ∀ j < Config.core.memSize, Mem.get m j = Mem.get m' j) : m = m' := by
  induction m generalizing lo m' with
  | nil =>
    cases m' with
    | nil => rfl
    | cons c' m' =>
      exact absurd (Mem.bound_le_head (lo' := c'.1 + 1) h' rfl fun j hj => (hread j hj).symm) (Nat.not_succ_le_self _)
  | cons c m ih =>
    cases m' with
    | nil => exact absurd (Mem.bound_le_head (lo' := c.1 + 1) h rfl hread) (Nat.not_succ_le_self _)
    | cons c' m' =>
      obtain ⟨k, v⟩ := c
      obtain ⟨k', v'⟩ := c'
      obtain ⟨-, hsize, hv, htail⟩ := Mem.wfFrom_cons.mp h
      obtain ⟨-, hsize', hv', htail'⟩ := Mem.wfFrom_cons.mp h'
      have hle : k' ≤ k := Mem.bound_le_head h (Mem.wfFrom_cons.mpr ⟨le_rfl, hsize', hv', htail'⟩) hread
      have hge : k ≤ k' := Mem.bound_le_head h' (Mem.wfFrom_cons.mpr ⟨le_rfl, hsize, hv, htail⟩) fun j hj => (hread j hj).symm
      obtain rfl : k = k' := Nat.le_antisymm hge hle
      obtain rfl : v = v' := by simpa [Mem.get] using hread k hsize
      refine congrArg _ (ih htail htail' fun j hj => ?_)
      by_cases hjk : j = k
      · have hbelow : j < k + 1 := by omega
        rw [Mem.get_below hbelow htail, Mem.get_below hbelow htail']
      · simpa [Mem.get, hjk] using hread j hj

/-- Settles O41: every address of the 256 is the value of an `Addr`. -/
theorem canonicalMemoriesAreEqual : Obligations.CanonicalMemoriesAreEqual := by
  unfold Obligations.CanonicalMemoriesAreEqual
  intro m m' h h' hread
  refine Mem.eq_of_get_eq h h' fun j hj => ?_
  simpa [Nat.mod_eq_of_lt (show j < 256 from hj)] using hread (BitVec.ofNat 8 j)

/-! ## A pushed byte as the next instruction's (R53) -/

/-- The top of the stack after PUSH is the value pushed (R132). -/
theorem effect_push_top (s : State) (r : Reg) :
    (effect s (.push r)).top = if r = 7 then (effect s (.push r)).reg 7 else s.reg r := by
  simp [effect, top_eq]

/-- Settles O42: the fetch reads the very cell that the stack pointer names. -/
theorem pushedByteIsFetched : Obligations.PushedByteIsFetched := by
  unfold Obligations.PushedByteIsFetched
  intro r s
  exact ⟨_, exec_eq_next (.push r) s, congrArg (State.memRead _), congrArg (State.memRead _), congrArg (State.memRead _),
    effect_push_top s r⟩

/-! ## The accesses of a step in order (R45, R46) -/

/-- The fetch accesses of an instruction with at most two operand bytes: ascending addresses modulo 256 (R46). -/
theorem fetchReads_eq_map {n : Nat} (hn : n ≤ 2) (pc : Addr) :
    fetchReads pc n = (List.range (1 + n)).map fun k => .read (pc + BitVec.ofNat 8 k) := by
  interval_cases n <;> simp [fetchReads, List.range_succ]

/-- The operand-count field of a row's opcode is the number of operand bytes of its format (R60, R62). -/
theorem operandCount_opcodeOf (op : Op) : operandCount (opcodeOf op) = match op.format with
    | .z => 0
    | .r => 1
    | .rr | .ri => 2 := by
  cases op <;> decide

theorem operandCount_opcodeOf_le (op : Op) : operandCount (opcodeOf op) ≤ 2 := by
  rw [operandCount_opcodeOf]
  cases op.format <;> decide

/-- An instruction is one byte longer than the operand count of its opcode (R62). -/
theorem encode_length (i : Instr) : (encode i).length = 1 + operandCount (opcodeOf i.op) := by
  rw [operandCount_opcodeOf]
  cases i <;> rfl

/-- What a fetch reads, by whether the opcode is defined (R46, R80). -/
theorem fetchAccesses_eq_map (s : State) : fetchAccesses s =
    (List.range (if s.opcodeByte ∈ definedOpcodes then 1 + operandCount s.opcodeByte else 1)).map
      fun k => .read (s.pc + BitVec.ofNat 8 k) := by
  obtain ⟨op, hdec, hop⟩ | hdec := decodeOpcode_cases s.opcodeByte
  · rw [fetchAccesses, hdec, if_pos (hop ▸ opcodeOf_mem_definedOpcodes op)]
    exact fetchReads_eq_map (hop ▸ operandCount_opcodeOf_le op) s.pc
  · have hundef : s.opcodeByte ∉ definedOpcodes := fun hmem => by
      obtain ⟨op, hop⟩ := mem_definedOpcodes_iff.mp hmem
      exact nomatch (decodeOpcode_ok_iff.mpr hop).symm.trans hdec
    simp [fetchAccesses, hdec, hundef]

/-- A fetched instruction's bytes are what its fetch reads. -/
theorem fetchAccesses_of_fetch_ok {s : State} {i : Instr} (h : s.fetch = .ok i) :
    fetchAccesses s = (List.range (encode i).length).map fun k => .read (s.pc + BitVec.ofNat 8 k) := by
  rw [fetchAccesses_eq_map, opcodeByte_of_fetch_ok h, if_pos (opcodeOf_mem_definedOpcodes i.op), encode_length]

/-- Settles O49: the accesses of the fetch, which the opcode byte decides, then the data access of the row. -/
theorem accessesInOrder : Obligations.AccessesInOrder := by
  unfold Obligations.AccessesInOrder
  refine ⟨fun s i hrun hfetch => ?_, fun s f hrun hfetch => ?_⟩
  · rw [stepAccesses_of_fetch_ok hrun hfetch, fetchAccesses_of_fetch_ok hfetch]
    refine congrArg _ ?_
    cases i with
    | push r | call r => simp [dataAccesses]
    | _ => rfl
  · rw [stepAccesses_of_fetch_error hrun hfetch, fetchAccesses_eq_map]

end Sys2Proof.Machine

/-! # The family of 30_encoding.md: the decoder inverts the encoder, and rejects exactly what the opcode map leaves out -/

namespace Sys2Proof

open Machine

/-! ## Decoding and encoding (R60, R66, R67) -/

/-- The operand bytes of an instruction are read back as that instruction, whatever follows them. -/
theorem decodeOperands_of_operandBytes {i : Instr} {op1 op2 : Byte} (h : i.operandBytes <+: [op1, op2]) :
    decodeOperands i.op op1 op2 = .ok i := by
  cases i with
  | nop | hlt | ret => rfl
  | push r | pop r | prn r | call r | jmp r | jeq r | jne r | not r =>
    obtain rfl : regByte r = op1 := by simpa [Instr.operandBytes] using h
    exact decodeR_regByte _ r
  | ldi r v =>
    obtain ⟨rfl, rfl⟩ : regByte r = op1 ∧ v = op2 := by simpa [Instr.operandBytes] using h
    exact decodeRI_regByte _ r v
  | add a b | sub a b | mult a b | div a b | mod a b | cmp a b | and a b | or a b | xor a b | shl a b | shr a b =>
    obtain ⟨rfl, rfl⟩ : regByte a = op1 ∧ regByte b = op2 := by simpa [Instr.operandBytes] using h
    exact decodeRR_regByte _ a b

/-- Bytes decode to an instruction exactly when they begin with its encoding. -/
theorem decode_eq_ok_iff {i : Instr} {ir op1 op2 : Byte} : decode ir op1 op2 = .ok i ↔ encode i <+: [ir, op1, op2] := by
  rw [encode, List.cons_prefix_cons]
  constructor
  · intro h
    obtain ⟨op, rfl, hdec⟩ | ⟨-, hdec⟩ := decode_cases ir op1 op2
    · obtain ⟨j, hj, rfl, hbytes, -⟩ | ⟨herr, -⟩ := decodeOperands_cases op op1 op2
      · obtain rfl : j = i := Except.ok.inj (hj.symm.trans (hdec.symm.trans h))
        exact ⟨rfl, hbytes⟩
      · exact nomatch herr.symm.trans (hdec.symm.trans h)
    · exact nomatch hdec.symm.trans h
  · rintro ⟨rfl, hbytes⟩
    rw [decode_opcodeOf, decodeOperands_of_operandBytes hbytes]

/-- Settles O2: the operand bytes at every value are read back by the reader of their format. -/
theorem decodeInvertsEncode : Obligations.DecodeInvertsEncode := by
  unfold Obligations.DecodeInvertsEncode
  exact fun _ _ _ _ => decode_eq_ok_iff.mpr

/-- Settles O1: each word begins with the encoding of its instruction. -/
theorem specWordsDecode : Obligations.SpecWordsDecode := by
  unfold Obligations.SpecWordsDecode
  simp only [decode_eq_ok_iff]
  decide

/-- The operand-count field gives the format of a row, but for LDI among the rows with two operand bytes (R60, R62). -/
theorem format_eq_of_operandCount (op : Op) : op.format = match operandCount (opcodeOf op) with
    | 0 => .z
    | 1 => .r
    | _ => if opcodeOf op = 0x82 then .ri else .rr := by
  cases op <;> rfl

/-- Settles O3: the first byte is the opcode of the instruction's row, which fixes its length and format. -/
theorem decodedBytesAreTheEncoding : Obligations.DecodedBytesAreTheEncoding := by
  unfold Obligations.DecodedBytesAreTheEncoding
  intro i ir op1 op2 h
  have hprefix := decode_eq_ok_iff.mp h
  obtain ⟨rfl, -⟩ := List.cons_prefix_cons.mp hprefix
  exact ⟨hprefix, encode_length i, format_eq_of_operandCount i.op⟩

/-! ## Undefined opcodes (R63, R68) -/

theorem lookupRow_eq_none_iff {table : List (Byte × Op)} {ir : Byte} :
    lookupRow table ir = none ↔ ir ∉ table.map Prod.fst := by
  simp only [lookupRow, Option.map_eq_none_iff, List.find?_eq_none, beq_iff_eq, List.mem_map, not_exists, not_and]

/-- The ALU-flag bit selects the table, and the table names the fault of a byte it does not have (R63). -/
theorem decodeOpcode_eq_error_iff {ir : Byte} {f : DecodeFault} : decodeOpcode ir = .error f ↔
    if aluFlag ir then ir ∉ aluTable.map Prod.fst ∧ f = .unknownAluOp
    else ir ∉ dispatchTable.map Prod.fst ∧ f = .unknownOpcode := by
  simp only [← lookupRow_eq_none_iff]
  cases hflag : aluFlag ir with
  | true => cases hrow : lookupRow aluTable ir <;> simp [decodeOpcode, hflag, hrow, eq_comm]
  | false => cases hrow : lookupRow dispatchTable ir <;> simp [decodeOpcode, hflag, hrow, eq_comm]

theorem decodeOpcode_eq_unknownAluOp_iff {ir : Byte} :
    decodeOpcode ir = .error .unknownAluOp ↔ aluFlag ir = true ∧ ir ∉ aluTable.map Prod.fst := by
  rw [decodeOpcode_eq_error_iff]
  split <;> simp only [*, true_and, and_true, reduceCtorEq, and_false, false_and]

theorem decodeOpcode_eq_unknownOpcode_iff {ir : Byte} :
    decodeOpcode ir = .error .unknownOpcode ↔ aluFlag ir = false ∧ ir ∉ dispatchTable.map Prod.fst := by
  rw [decodeOpcode_eq_error_iff]
  split <;> simp only [*, true_and, and_true, reduceCtorEq, and_false, false_and]

/-- An opcode fault is raised by the opcode byte alone: operand bytes raise only the index fault (R68). -/
theorem decode_eq_error_iff_decodeOpcode {f : DecodeFault} (hf : f ≠ .invalidRegisterIndex) (ir op1 op2 : Byte) :
    decode ir op1 op2 = .error f ↔ decodeOpcode ir = .error f := by
  obtain ⟨op, -, rfl⟩ | hundef := decodeOpcode_cases ir
  · obtain ⟨i, hi, -⟩ | ⟨herr, -⟩ := decodeOperands_cases op op1 op2
    · simp [hi]
    · simp [herr, hf.symm]
  · simp [decode, hundef]

/-- Bit 5 is set in every other block of 32 byte values. -/
theorem aluFlag_iff_range {ir : Byte} : aluFlag ir = true ↔
    (0x20 ≤ ir.toNat ∧ ir.toNat ≤ 0x3F) ∨ (0x60 ≤ ir.toNat ∧ ir.toNat ≤ 0x7F) ∨
    (0xA0 ≤ ir.toNat ∧ ir.toNat ≤ 0xBF) ∨ 0xE0 ≤ ir.toNat := by
  have hlt := ir.isLt
  rw [aluFlag, BitVec.getLsbD, Nat.testBit_eq_decide_div_mod_eq, decide_eq_true_iff]
  omega

/-- The ALU rows are NOT and the opcodes of format RR (R66). -/
theorem mem_aluTable_iff {ir : Byte} : ir ∈ aluTable.map Prod.fst ↔ ir = 0x69 ∨ ir ∈ opcodesRR := by
  rw [← List.mem_cons]
  rfl

theorem opcodesRR_range : ∀ ir ∈ opcodesRR, 0xA0 ≤ ir.toNat ∧ ir.toNat ≤ 0xBF := by
  simp [opcodesRR]

/-- R68's ranges: the four blocks with bit 5 set; NOT lies in the second and every RR opcode in the third, so each is taken out of that block
alone. -/
theorem unknownAluOp_iff_range {ir : Byte} : decodeOpcode ir = .error .unknownAluOp ↔
    (0x20 ≤ ir.toNat ∧ ir.toNat ≤ 0x3F) ∨ (0x60 ≤ ir.toNat ∧ ir.toNat ≤ 0x7F ∧ ir ≠ 0x69) ∨
    (0xA0 ≤ ir.toNat ∧ ir.toNat ≤ 0xBF ∧ ir ∉ opcodesRR) ∨ 0xE0 ≤ ir.toNat := by
  rw [decodeOpcode_eq_unknownAluOp_iff, aluFlag_iff_range, mem_aluTable_iff]
  have hnot : ir = 0x69 → ir.toNat = 0x69 := fun h => h ▸ rfl
  have hRR := opcodesRR_range ir
  grind

/-- Settles O4: the opcode byte alone decides, first by bit 5 and then by the table it selects; the counts are taken over all 256 bytes. -/
theorem undefinedOpcodesByRange : Obligations.UndefinedOpcodesByRange := by
  unfold Obligations.UndefinedOpcodesByRange
  refine ⟨fun ir op1 op2 => ?_, fun ir op1 op2 => ?_, by decide +kernel, by decide +kernel⟩
  · rw [decode_eq_error_iff_decodeOpcode (by decide), unknownAluOp_iff_range]
  · rw [decode_eq_error_iff_decodeOpcode (by decide), decodeOpcode_eq_unknownOpcode_iff]
    rfl

/-! ## The register-index check (R65) -/

/-- Only a defined opcode declares a register index. -/
theorem mem_definedOpcodes_of_badIndex {ir op1 op2 : Byte} (h : badIndex ir op1 op2 = true) :
    ir ∈ definedOpcodes := by
  simp only [badIndex, decide_eq_true_iff] at h
  simp only [definedOpcodes, List.mem_append]
  tauto

/-- Settles O5: of a defined opcode the format's indexes decide; an undefined one raises an opcode fault and declares no index. -/
theorem registerIndexCheckedByDecoder : Obligations.RegisterIndexCheckedByDecoder := by
  unfold Obligations.RegisterIndexCheckedByDecoder
  intro ir op1 op2
  obtain ⟨op, rfl, -⟩ | ⟨hundef, hdec⟩ := decode_cases ir op1 op2
  · obtain ⟨i, hi, -, -, hgood⟩ | ⟨herr, hbad⟩ := decodeOperands_cases op op1 op2
    · simp [hi, hgood]
    · simp [herr, hbad]
  · have hgood : badIndex ir op1 op2 ≠ true := fun h =>
      have ⟨op, hop⟩ := mem_definedOpcodes_iff.mp (mem_definedOpcodes_of_badIndex h)
      hundef op hop
    rw [hdec]
    cases aluFlag ir <;> simp [hgood]

/-! ## The fields of the opcodes (R61 to R64, R70) -/

theorem operandCount_eq_length (i : Instr) : operandCount (opcodeOf i.op) = i.operandBytes.length := by
  have h := encode_length i
  rw [encode, List.length_cons] at h
  omega

theorem aluFlag_opcodeOf_iff (op : Op) : aluFlag (opcodeOf op) = true ↔
    op ∈ ([.add, .sub, .mult, .div, .cmp, .and, .or, .xor, .shl, .shr, .mod, .not] : List Op) := by
  cases op <;> decide

theorem spcFlag_opcodeOf_iff (op : Op) :
    spcFlag (opcodeOf op) = true ↔ op ∈ ([.call, .ret, .jmp, .jeq, .jne] : List Op) := by
  cases op <;> decide

/-- Settles O6: the bits depend on the row alone. -/
theorem opcodeFieldsAgreeWithTheIsa : Obligations.OpcodeFieldsAgreeWithTheIsa := by
  unfold Obligations.OpcodeFieldsAgreeWithTheIsa
  exact ⟨operandCount_eq_length, fun i => aluFlag_opcodeOf_iff i.op, fun i => spcFlag_opcodeOf_iff i.op,
    fun _ _ => opcodeOf_injective⟩

end Sys2Proof

/-! # The family of 40_engine.md: what a step is in each run state, and a run that never ends -/

namespace Sys2Proof.Machine

/-! ## The step (R80, R87) -/

/-- Settles O7: the three bytes of the statement are those a fetch decodes. -/
theorem stepRunsDecodedInstruction : Obligations.StepRunsDecodedInstruction := by
  unfold Obligations.StepRunsDecodedInstruction
  intro s i hrun hdecode
  have hfetch : s.fetch = .ok i := hdecode
  exact step_of_fetch_ok hrun hfetch

theorem step_of_halted {s : State} (hrun : s.run = .halted) : step s = .fault .halted := by
  simp [step, hrun]

theorem step_of_faulted {s : State} (hrun : s.run = .faulted) : step s = .fault .faulted := by
  simp [step, hrun]

/-- Settles O8: `run` is judged before anything is fetched. -/
theorem haltedAndFaultedHaveNoStep : Obligations.HaltedAndFaultedHaveNoStep := by
  unfold Obligations.HaltedAndFaultedHaveNoStep
  exact fun s => ⟨step_of_halted, step_of_faulted⟩

/-! ## A run that never ends (R89) -/

/-- A state that one step leads back to is the state after any number of steps. -/
theorem run_of_step_self (M : Host.Core) {s : M.State} (h : M.step s = .next s) (k : Nat) : M.run k s = .next s := by
  induction k with
  | zero => rfl
  | succ k ih => simpa only [Host.Core.run, h] using ih

@[simp] theorem setPc_self (s : State) : s.setPc s.pc = s := rfl

/-- Settles O47: JMP writes `pc` alone (R136), and here the value it already holds, so one step leads back to the same state. -/
theorem jumpToItselfNeverEnds : Obligations.JumpToItselfNeverEnds := by
  unfold Obligations.JumpToItselfNeverEnds
  intro r s hrun hfetch htarget
  have hstep : step s = .next s := by
    calc step s = exec (.jmp r) s := step_of_fetch_ok hrun hfetch
      _ = .next (s.setPc (s.reg r)) := exec_jmp s r
      _ = .next s := by rw [htarget, setPc_self]
  exact run_of_step_self core hstep

end Sys2Proof.Machine

/-! # The family of 41_alu.md: what each ALU instruction computes, and that it changes nothing else -/

namespace Sys2Proof.Machine

/-! ## The parts of a rule: encoding, advance of `pc`, frame -/

/-- Every instruction has the encoding the encoder gives it (R66, R67). -/
theorem hasEncoding_encode (i : Instr) : HasEncoding i (encode i) :=
  ⟨rfl, fun _ _ _ => decode_eq_ok_iff.mpr⟩

/-- The engine's advance of `pc`, whatever the instruction has made of the rest of the state (R15, R85). -/
theorem pcAdvanced_setPc (n : Nat) (s t : State) : PcAdvanced n s (t.setPc (s.pc + BitVec.ofNat 8 n)) := by
  simp [PcAdvanced]

/-- An instruction that leads to a register write and an advance of `pc` changes nothing else (R10, R85). -/
theorem completesWriting_of_exec {i : Instr} {d : Reg} {n : Nat} {P : Byte → Prop} {s : State} {v : Byte}
    (hexec : exec i s = .next ((s.setReg d v).setPc (s.pc + BitVec.ofNat 8 n))) (hv : P v) :
    CompletesWriting i d n P s :=
  ⟨_, hexec, (reg_setReg_self s d v).symm ▸ hv, fun _ hr => reg_setReg_of_ne s (List.ne_of_not_mem_cons hr) v,
    pcAdvanced_setPc n s _, rfl, fun _ => rfl, rfl, rfl, rfl, rfl, rfl⟩

/-- Taking a fault is what R165 says of it. -/
theorem tookFault_takeFault (c : FaultCause) (ir : Byte) (s : State) :
    TookFault c.code.toNat ir s (s.takeFault c ir) :=
  ⟨rfl, rfl, rfl, rfl, fun _ _ => rfl, rfl, rfl, fun _ => rfl, rfl⟩

/-! ## The results in unsigned arithmetic (R102) -/

/-- A result that fits in a byte is not changed by the reduction. -/
theorem wrap_natCast_of_lt {n : Nat} (h : n < 256) : (wrap (n : Int)).toNat = n :=
  (wrap_natCast n).trans (Nat.mod_eq_of_lt h)

section Results

variable (va vb : Byte)

theorem toNat_wrap_add : (wrap (val va + val vb)).toNat = (va.toNat + vb.toNat) % 256 := by
  simpa [val] using wrap_natCast (va.toNat + vb.toNat)

theorem toNat_wrap_mul : (wrap (val va * val vb)).toNat = (va.toNat * vb.toNat) % 256 := by
  simpa [val] using wrap_natCast (va.toNat * vb.toNat)

/-- A quotient is at most its dividend, so it fits (R107). -/
theorem toNat_wrap_div : (wrap (val va / val vb)).toNat = va.toNat / vb.toNat := by
  have hlt : va.toNat / vb.toNat < 256 := (Nat.div_le_self _ _).trans_lt va.isLt
  simpa [val] using wrap_natCast_of_lt hlt

/-- A remainder is at most its dividend, so it fits (R114). -/
theorem toNat_wrap_mod : (wrap (val va % val vb)).toNat = va.toNat % vb.toNat := by
  have hlt : va.toNat % vb.toNat < 256 := (Nat.mod_le _ _).trans_lt va.isLt
  simpa [val] using wrap_natCast_of_lt hlt

theorem toNat_wrap_shl (k : Nat) : (wrap (val va * 2 ^ k)).toNat = (va.toNat * 2 ^ k) % 256 := by
  simpa [val] using wrap_natCast (va.toNat * 2 ^ k)

/-- A value shifted right is at most what it was, so it fits (R113). -/
theorem toNat_wrap_shr (k : Nat) : (wrap (val va / 2 ^ k)).toNat = va.toNat / 2 ^ k := by
  have hlt : va.toNat / 2 ^ k < 256 := (Nat.div_le_self _ _).trans_lt va.isLt
  simpa [val] using wrap_natCast_of_lt hlt

/-- From count 8 on, the power of 2 is a multiple of 256, and so is the product (R112). -/
theorem wrap_shl_eq_zero {k : Nat} (hk : 8 ≤ k) : wrap (val va * 2 ^ k) = 0 := by
  have hdvd : 256 ∣ va.toNat * 2 ^ k := (Nat.pow_dvd_pow 2 hk).mul_left _
  exact BitVec.eq_of_toNat_eq ((toNat_wrap_shl va k).trans (Nat.mod_eq_zero_of_dvd hdvd))

/-- From count 8 on, a byte is less than the power it is divided by (R113). -/
theorem wrap_shr_eq_zero {k : Nat} (hk : 8 ≤ k) : wrap (val va / 2 ^ k) = 0 := by
  have hlt : va.toNat < 2 ^ k := va.isLt.trans_le (Nat.pow_le_pow_right Nat.two_pos hk)
  exact BitVec.eq_of_toNat_eq ((toNat_wrap_shr va k).trans (Nat.div_eq_of_lt hlt))

/-- Of the three values CMP writes, only that for equal operands has E set (R17, R108). -/
theorem flagE_compareFlags : flagE (compareFlags va vb) = decide (va = vb) := by
  unfold compareFlags
  split
  · next heq => rw [decide_eq_true heq]; rfl
  · next hne =>
    rw [decide_eq_false hne]
    split <;> rfl

end Results

/-! ## DIV and MOD by whether the divisor is 0 (R107, R114) -/

section Division

variable {s : State} (a : Reg) {b : Reg}

theorem exec_div_of_ne_zero (h : s.reg b ≠ 0) :
    exec (.div a b) s = .next ((s.setReg a (wrap (val (s.reg a) / val (s.reg b)))).setPc (s.pc + 3)) :=
  (exec_div s a b).trans (if_neg h)

theorem exec_mod_of_ne_zero (h : s.reg b ≠ 0) :
    exec (.mod a b) s = .next ((s.setReg a (wrap (val (s.reg a) % val (s.reg b)))).setPc (s.pc + 3)) :=
  (exec_mod s a b).trans (if_neg h)

theorem exec_div_of_zero (h : s.reg b = 0) : exec (.div a b) s = .next (s.takeFault .divideByZero 0xA3) :=
  (exec_div s a b).trans (if_pos h)

theorem exec_mod_of_zero (h : s.reg b = 0) : exec (.mod a b) s = .next (s.takeFault .divideByZero 0xA4) :=
  (exec_mod s a b).trans (if_pos h)

/-- MOD's remainder is below the divisor, and DIV's quotient makes up the rest of the dividend. -/
theorem exec_mod_exec_div_identity (h : s.reg b ≠ 0) :
    ∃ t u, exec (.mod a b) s = .next t ∧ exec (.div a b) s = .next u ∧ (t.reg a).toNat < (s.reg b).toNat ∧
      (s.reg a).toNat = (u.reg a).toNat * (s.reg b).toNat + (t.reg a).toNat := by
  refine ⟨_, _, exec_mod_of_ne_zero a h, exec_div_of_ne_zero a h, ?_⟩
  simp only [setPc_reg, reg_setReg_self, toNat_wrap_mod, toNat_wrap_div]
  have hpos : 0 < (s.reg b).toNat := Nat.pos_of_ne_zero fun hzero => h (BitVec.eq_of_toNat_eq hzero)
  exact ⟨Nat.mod_lt _ hpos, (Nat.div_add_mod' _ _).symm⟩

end Division

/-- Settles O21: both clauses for a divisor that is not 0 are about the state `exec_mod_of_ne_zero` names. -/
theorem modRule : Obligations.ModRule := by
  unfold Obligations.ModRule
  intro a b s
  refine ⟨hasEncoding_encode (.mod a b), fun hne => ⟨?_, exec_mod_exec_div_identity a hne⟩, fun hzero => ?_⟩
  · exact completesWriting_of_exec (exec_mod_of_ne_zero a hne) (toNat_wrap_mod _ _)
  · exact ⟨_, exec_mod_of_zero a hzero, tookFault_takeFault .divideByZero 0xA4 s⟩

/-! ## CMP and the branch after it (R108, R137, R138) -/

/-- JEQ and JNE in a state whose FL.E records whether a condition held: one of them branches and the other goes on. -/
theorem exec_branch_of_flagE {t : State} {c : Prop} [Decidable c] (h : flagE t.fl = decide c) (r : Reg) :
    (∃ u, exec (.jeq r) t = .next u ∧ if c then u.pc = t.reg r else PcAdvanced 2 t u) ∧
    (∃ u, exec (.jne r) t = .next u ∧ if c then PcAdvanced 2 t u else u.pc = t.reg r) := by
  by_cases hc : c
  · obtain ⟨hjeq, hjne⟩ := exec_branch_of_equal t r (h.trans (decide_eq_true hc))
    simp only [if_pos hc]
    exact ⟨⟨_, hjeq, rfl⟩, ⟨_, hjne, pcAdvanced_setPc 2 t t⟩⟩
  · obtain ⟨hjeq, hjne⟩ := exec_branch_of_not_equal t r (h.trans (decide_eq_false hc))
    simp only [if_neg hc]
    exact ⟨⟨_, hjeq, pcAdvanced_setPc 2 t t⟩, ⟨_, hjne, rfl⟩⟩

/-- Settles O22: after CMP, FL.E records whether the values were equal. -/
theorem cmpRule : Obligations.CmpRule := by
  unfold Obligations.CmpRule
  intro a b s
  refine ⟨hasEncoding_encode (.cmp a b), _, exec_cmp s a b, ⟨rfl, pcAdvanced_setPc 3 s _, rfl, rfl, fun r => ?_⟩,
    fun _ _ => rfl, fun _ => rfl, rfl, rfl, rfl⟩
  exact exec_branch_of_flagE (flagE_compareFlags _ _) r

/-! ## The instructions that always write x[a] -/

/-- Settles O26: the power of 2 is that of the whole count. -/
theorem shlRule : Obligations.ShlRule := by
  unfold Obligations.ShlRule
  exact fun a b s => ⟨hasEncoding_encode (.shl a b),
    completesWriting_of_exec (exec_shl s a b) ⟨toNat_wrap_shl _ _, wrap_shl_eq_zero _⟩⟩

/-- Settles O27: the power of 2 is that of the whole count. -/
theorem shrRule : Obligations.ShrRule := by
  unfold Obligations.ShrRule
  exact fun a b s => ⟨hasEncoding_encode (.shr a b),
    completesWriting_of_exec (exec_shr s a b) ⟨toNat_wrap_shr _ _, wrap_shr_eq_zero _⟩⟩

/-- Settles O17: the reduction drops the carry. -/
theorem addRule : Obligations.AddRule := by
  unfold Obligations.AddRule
  exact fun a b s => ⟨hasEncoding_encode (.add a b), completesWriting_of_exec (exec_add s a b) (toNat_wrap_add _ _)⟩

/-- Settles O18: the reduction of a difference over the integers, negative ones included. -/
theorem subRule : Obligations.SubRule := by
  unfold Obligations.SubRule
  exact fun a b s => ⟨hasEncoding_encode (.sub a b), completesWriting_of_exec (exec_sub s a b) (wrap_toNat _)⟩

/-- Settles O19: the reduction drops the high half of the product. -/
theorem multRule : Obligations.MultRule := by
  unfold Obligations.MultRule
  exact fun a b s => ⟨hasEncoding_encode (.mult a b), completesWriting_of_exec (exec_mult s a b) (toNat_wrap_mul _ _)⟩

/-- Settles O20: by whether the divisor is 0. -/
theorem divRule : Obligations.DivRule := by
  unfold Obligations.DivRule
  intro a b s
  refine ⟨hasEncoding_encode (.div a b), fun hne => ?_, fun hzero => ?_⟩
  · exact completesWriting_of_exec (exec_div_of_ne_zero a hne) (toNat_wrap_div _ _)
  · exact ⟨_, exec_div_of_zero a hzero, tookFault_takeFault .divideByZero 0xA3 s⟩

/-- Settles O23: bit by bit, the library's law of AND on bit vectors. -/
theorem andRule : Obligations.AndRule := by
  unfold Obligations.AndRule
  exact fun a b s => ⟨hasEncoding_encode (.and a b),
    completesWriting_of_exec (exec_and s a b) fun _ _ => BitVec.getLsbD_and⟩

/-- Settles O24: bit by bit, the library's law of OR on bit vectors. -/
theorem orRule : Obligations.OrRule := by
  unfold Obligations.OrRule
  exact fun a b s => ⟨hasEncoding_encode (.or a b),
    completesWriting_of_exec (exec_or s a b) fun _ _ => BitVec.getLsbD_or⟩

/-- Settles O25: bit by bit, the library's law of XOR on bit vectors. -/
theorem xorRule : Obligations.XorRule := by
  unfold Obligations.XorRule
  exact fun a b s => ⟨hasEncoding_encode (.xor a b),
    completesWriting_of_exec (exec_xor s a b) fun _ _ => BitVec.getLsbD_xor⟩

/-! ## NOT (R115) -/

/-- The second NOT complements what the first one wrote. -/
theorem exec_not_twice (s : State) (a : Reg) :
    ∃ t u, exec (.not a) s = .next t ∧ exec (.not a) t = .next u ∧ u.reg a = s.reg a :=
  ⟨_, _, exec_not s a, exec_not _ a, by simp⟩

/-- Settles O28: its encoding has one operand byte, so the byte after that is free. -/
theorem notRule : Obligations.NotRule := by
  unfold Obligations.NotRule
  refine fun a s => ⟨hasEncoding_encode (.not a), ?_, exec_not_twice s a⟩
  exact completesWriting_of_exec (exec_not s a) ⟨BitVec.toNat_not, fun k hk => by simp [hk]⟩

end Sys2Proof.Machine

/-! # The family of 42_handlers.md: what each dispatch-table instruction does, and that it changes nothing else -/

namespace Sys2Proof.Machine

/-! ## The index check of formats R and RI (R65) -/

/-- Of a row whose format declares the index of `op1` alone, the decoder rejects exactly an `op1` above 7. -/
theorem decode_eq_invalidRegisterIndex_iff {op : Op} (h : op.format = .r ∨ op.format = .ri) (op1 op2 : Byte) :
    decode (opcodeOf op) op1 op2 = .error .invalidRegisterIndex ↔ 7 < op1.toNat := by
  rw [registerIndexCheckedByDecoder (opcodeOf op) op1 op2, badIndex_opcodeOf]
  obtain h | h := h <;> simp [h]

/-! ## Instructions that write no register and no memory -/

/-- Without a register to write, a data access to make or a fault to take, an instruction leaves registers, memory and fault registers alone. -/
theorem completesKeeping_of_effect {i : Instr} {P : State → Prop} {s : State} (hregs : writtenRegs i = [])
    (hmem : dataAccesses i s = []) (hz : dividesByZero s i = false) (hP : P (effect s i)) : CompletesKeeping i P s := by
  have hsame : (effect s i).mem = s.mem := by rw [effect_mem, hmem, List.foldl_nil]
  exact ⟨_, exec_eq_next i s, hP, hregs ▸ effect_sameRegsExcept s i, fun a => congrArg (Mem.get · a.toNat) hsame,
    effect_sameFaultRegs s i hz⟩

/-! ## The stack (R141) -/

section Stack

variable (s : State) (r : Reg)

theorem spDec_reg_sp : s.spDec.reg sp = s.reg 7 - 1 := (spDec_reg s 7).trans (if_pos rfl)

/-- A decrement modulo 256 adds 255. -/
theorem toNat_sub_one (v : Byte) : (v - 1).toNat = (v.toNat + 255) % 256 := by bv_omega

/-- No instruction writes a cell other than the one below the top of the stack (R45). -/
theorem effect_sameMemoryExcept (i : Instr) : SameMemoryExcept (s.reg 7 - 1) s (effect s i) := by
  intro a ha
  rw [State.memRead, effect_mem]
  refine get_foldl_apply_of_not_written _ fun v hwrite => ?_
  obtain ⟨-, haddr⟩ := write_mem_dataAccesses hwrite
  exact ha haddr

theorem effect_push_sp : (effect s (.push r)).reg 7 = s.reg 7 - 1 := reg_setReg_self s 7 _

theorem effect_call_sp : (effect s (.call r)).reg 7 = s.reg 7 - 1 := reg_setReg_self s 7 _

/-- The top of the stack after CALL is the return address (R134). -/
theorem effect_call_top : (effect s (.call r)).top = s.pc + 2 := by
  simp [effect, top_eq]

/-- `x[7]` after POP: the increment follows the write of `x[r]`, so for r = 7 it counts from the popped byte (R133). -/
theorem effect_pop_sp : (effect s (.pop r)).reg 7 = (if r = 7 then s.top else s.reg 7) + 1 := reg_setReg_self _ 7 _

theorem effect_pop_reg (h : r ≠ 7) : (effect s (.pop r)).reg r = s.top := by
  simp [effect, reg_setReg_of_ne _ h, top_eq]

theorem effect_ret_sp : (effect s .ret).reg 7 = s.reg 7 + 1 := reg_setReg_self _ 7 _

/-- POP right after PUSH of the same register takes back what the push stored and moves `x[7]` back up. -/
theorem effect_push_pop_restores : (effect (effect s (.push r)) (.pop r)).reg r = s.reg r ∧
    (effect (effect s (.push r)) (.pop r)).reg 7 = s.reg 7 := by
  by_cases hr : r = 7
  · subst hr
    have hsp : (effect (effect s (.push 7)) (.pop 7)).reg 7 = s.reg 7 := by
      rw [effect_pop_sp, if_pos rfl, effect_push_top, if_pos rfl, effect_push_sp, BitVec.sub_add_cancel]
    exact ⟨hsp, hsp⟩
  · rw [effect_pop_reg _ r hr, effect_pop_sp, if_neg hr, effect_push_top, if_neg hr, effect_push_sp,
      BitVec.sub_add_cancel]
    exact ⟨rfl, rfl⟩

end Stack

/-- Settles O32: by whether r is 7 for what POP leaves in the two registers; memory is only read. -/
theorem popRule : Obligations.PopRule := by
  unfold Obligations.PopRule
  refine fun r s => ⟨hasEncoding_encode (.pop r), ⟨_, exec_eq_next (.pop r) s, fun hr => ?_, fun hr => ?_,
    effect_sameRegsExcept s (.pop r), fun _ => rfl, effect_pc s (.pop r), rfl, rfl, rfl, rfl, rfl, rfl⟩,
    _, _, exec_eq_next (.push r) s, exec_eq_next (.pop r) _, effect_push_pop_restores s r⟩
  · rw [effect_pop_reg s r hr, effect_pop_sp, if_neg hr]
    exact ⟨rfl, BitVec.toNat_add _ _⟩
  · rw [effect_pop_sp, if_pos hr]
    exact BitVec.toNat_add _ _

/-- After a CALL, RET goes to the return address and moves `x[7]` back up, if it still finds `x[7]` and the cell there as the CALL left them. -/
theorem effect_call_ret_restores {s u : State} {r : Reg} (hsp : u.reg 7 = (effect s (.call r)).reg 7)
    (hcell : u.memRead ((effect s (.call r)).reg 7) = (effect s (.call r)).top) :
    (effect u .ret).pc = s.pc + 2 ∧ (effect u .ret).reg 7 = s.reg 7 := by
  constructor
  · calc (effect u .ret).pc = u.memRead (u.reg 7) := rfl
      _ = (effect s (.call r)).top := by rw [hsp, hcell]
      _ = s.pc + 2 := effect_call_top s r
  · rw [effect_ret_sp, hsp, effect_call_sp, BitVec.sub_add_cancel]

/-- Settles O34: for the state the CALL led to, `effect_call_ret_restores`; memory is only read. -/
theorem retRule : Obligations.RetRule := by
  unfold Obligations.RetRule
  refine ⟨hasEncoding_encode .ret, fun s => ⟨_, exec_eq_next .ret s, rfl, ?_, effect_sameRegsExcept s .ret,
    fun _ => rfl, rfl, rfl, rfl, rfl, rfl, rfl⟩, fun r s t u hcall hsp hcell => ?_⟩
  · rw [effect_ret_sp]
    exact BitVec.toNat_add _ _
  · obtain rfl := eq_effect_of_exec hcall
    obtain ⟨hpc, hrestored⟩ := effect_call_ret_restores hsp hcell
    exact ⟨_, exec_eq_next .ret u, by rw [hpc]; exact BitVec.toNat_add _ _, hrestored⟩

/-- Settles O31: the stored value is the one `effect_push_top` names. -/
theorem pushRule : Obligations.PushRule := by
  unfold Obligations.PushRule
  intro r s
  rw [spDec_reg_sp]
  refine ⟨hasEncoding_encode (.push r), _, exec_eq_next (.push r) s, ?_, effect_sameRegsExcept s (.push r),
    (effect_push_sp s r).symm, ?_, effect_sameMemoryExcept s (.push r), effect_pc s (.push r),
    rfl, rfl, rfl, rfl, rfl, rfl⟩
  · rw [effect_push_sp, toNat_sub_one]
  · rw [← effect_push_sp s r, ← top_eq, effect_push_top]

/-- Settles O33: the stored value is the one `effect_call_top` names; the target is read after the decrement. -/
theorem callRule : Obligations.CallRule := by
  unfold Obligations.CallRule
  intro r s
  rw [spDec_reg_sp]
  refine ⟨hasEncoding_encode (.call r), _, exec_eq_next (.call r) s, ?_, effect_sameRegsExcept s (.call r),
    (effect_call_sp s r).symm, ?_, effect_sameMemoryExcept s (.call r), ?_, rfl, rfl, rfl, rfl, rfl, rfl⟩
  · rw [effect_call_sp, toNat_sub_one]
  · rw [← effect_call_sp s r, ← top_eq, effect_call_top]
    exact BitVec.toNat_add _ _
  · rw [effect_call_sp]
    rfl

/-! ## Loading and printing (R130, R131) -/

/-- Settles O29: only `op1` is a register index, so only `op1` is checked. -/
theorem ldiRule : Obligations.LdiRule := by
  unfold Obligations.LdiRule
  exact fun r v s => ⟨hasEncoding_encode (.ldi r v), completesWriting_of_exec (exec_ldi s r v) rfl, rfl,
    decode_eq_invalidRegisterIndex_iff (op := .ldi) (.inr rfl)⟩

/-- Settles O30: the port and the trace take the same value. -/
theorem prnRule : Obligations.PrnRule := by
  unfold Obligations.PrnRule
  exact fun r s => ⟨hasEncoding_encode (.prn r),
    completesKeeping_of_effect rfl rfl rfl ⟨effect_out s (.prn r), rfl, effect_pc s (.prn r), rfl, rfl⟩⟩

/-! ## Jumps (R136 to R138) -/

/-- Settles O35: JMP writes `pc` alone. -/
theorem jmpRule : Obligations.JmpRule := by
  unfold Obligations.JmpRule
  exact fun r s => ⟨hasEncoding_encode (.jmp r), completesKeeping_of_effect rfl rfl rfl ⟨rfl, rfl, rfl, rfl⟩⟩

/-- Settles O36: the two outcomes are the two branches of `effect` on FL.E; the decoder does not see FL. -/
theorem jeqRule : Obligations.JeqRule := by
  unfold Obligations.JeqRule
  refine fun r s => ⟨hasEncoding_encode (.jeq r), completesKeeping_of_effect rfl rfl rfl
      ⟨fun hset => if_pos hset, fun hclear => ?_, rfl, rfl, rfl⟩,
    fun op1 op2 => (decode_eq_invalidRegisterIndex_iff (op := .jeq) (.inl rfl) op1 op2).mpr⟩
  exact (effect_pc s (.jeq r)).trans (if_neg (Bool.eq_false_iff.mp hclear))

/-- Settles O37: as for JEQ, the branches exchanged. -/
theorem jneRule : Obligations.JneRule := by
  unfold Obligations.JneRule
  refine fun r s => ⟨hasEncoding_encode (.jne r), completesKeeping_of_effect rfl rfl rfl
      ⟨fun hclear => ?_, fun hset => (effect_pc s (.jne r)).trans (if_pos hset), rfl, rfl, rfl⟩,
    fun op1 op2 => (decode_eq_invalidRegisterIndex_iff (op := .jne) (.inl rfl) op1 op2).mpr⟩
  exact if_neg (Bool.eq_false_iff.mp hclear)

/-! ## NOP and HLT (R139, R140) -/

/-- Settles O38: NOP advances `pc` and that is all. -/
theorem nopRule : Obligations.NopRule := by
  unfold Obligations.NopRule
  exact fun s => ⟨hasEncoding_encode .nop, completesKeeping_of_effect rfl rfl rfl ⟨effect_pc s .nop, rfl, rfl, rfl⟩⟩

/-- Settles O39: the step after HLT is that of a Halted machine. -/
theorem hltRule : Obligations.HltRule := by
  unfold Obligations.HltRule
  exact fun s => ⟨hasEncoding_encode .hlt, completesKeeping_of_effect rfl rfl rfl
    ⟨effect_pc s .hlt, rfl, step_of_halted rfl, rfl, rfl⟩⟩

end Sys2Proof.Machine

/-! # The family of 60_exceptions.md: the step takes the fault that is due, precisely -/

namespace Sys2Proof.Machine

/-- While Running a step always answers a next state: a fault that is taken is one too (R165, R200). -/
theorem exists_step_of_running {s : State} (hrun : s.run = .running) : ∃ t, step s = .next t := by
  cases hfetch : s.fetch with
  | ok i => exact ⟨_, (step_of_fetch_ok hrun hfetch).trans (exec_eq_next i s)⟩
  | error f => exact ⟨_, step_of_fetch_error hrun hfetch⟩

/-- An instruction that does not divide by zero does not end a run in Faulted (R20, R164). -/
theorem effect_run_ne_faulted {s : State} {i : Instr} (hrun : s.run = .running) (hz : dividesByZero s i = false) :
    (effect s i).run ≠ .faulted := by
  rw [effect_run, hz, hrun]
  split <;> simp

/-- Settles O10: the step that a Running machine always has either takes the fault that is due, which is what R165 says of it, or, with
none due, runs an instruction that neither faults nor touches the fault registers. -/
theorem faultsByPriorityAndPrecise : Obligations.FaultsByPriorityAndPrecise := by
  unfold Obligations.FaultsByPriorityAndPrecise
  intro s hrun
  obtain ⟨t, hstep⟩ := exists_step_of_running hrun
  refine ⟨t, hstep, ?_⟩
  obtain ⟨-, ⟨c, hcause, rfl⟩ | ⟨i, -, hz, hdue, rfl⟩⟩ := step_cases_by_fault hstep
  · rw [← hcause, if_neg c.code_toNat_ne_zero]
    exact tookFault_takeFault c s.opcodeByte s
  · rw [if_pos hdue]
    exact ⟨effect_run_ne_faulted hrun hz, effect_sameFaultRegs s i hz⟩

end Sys2Proof.Machine

/-! # The family of 70_reset_and_hazards.md: what reset gives, and what the engine promises a program -/

namespace Sys2Proof.Machine

/-! ## The engine's promises (R87, R197, R199, R200) -/

/-- Settles O9: a Running machine has a next state, and only a Running machine takes a step. -/
theorem runningStepIsAlwaysEnabled : Obligations.RunningStepIsAlwaysEnabled := by
  unfold Obligations.RunningStepIsAlwaysEnabled
  refine fun s => ⟨exists_step_of_running, fun ⟨t, hstep⟩ => ?_⟩
  obtain ⟨hrun, -⟩ := step_cases hstep
  exact hrun

/-- No instruction writes a cell below a bound that the stack pointer is above (R197). -/
theorem effect_memRead_of_stackAbove {p : Nat} {s : State} (h : StackAbove p s) (i : Instr) {a : Addr} (ha : a.toNat < p) :
    (effect s i).memRead a = s.memRead a := by
  unfold StackAbove at h
  have hne : a ≠ s.reg 7 - 1 := by bv_omega
  exact effect_sameMemoryExcept s i a hne

/-- Settles O43: PUSH and CALL write the cell below the top of the stack, which is no cell of the program. -/
theorem stackAboveProgramKeepsIt : Obligations.StackAboveProgramKeepsIt := by
  unfold Obligations.StackAboveProgramKeepsIt
  intro p r s t habove hpush a ha
  obtain ⟨i, hexec⟩ : ∃ i, exec i s = .next t := hpush.elim (⟨.push r, ·⟩) (⟨.call r, ·⟩)
  obtain rfl := eq_effect_of_exec hexec
  exact effect_memRead_of_stackAbove habove i ha

/-- R199's count is one access for each byte of the instruction and one for each data access (R45, R46). -/
theorem encode_length_add_dataAccesses_length (i : Instr) (s : State) :
    (encode i).length + (dataAccesses i s).length = accessCount i := by
  cases i <;> rfl

/-- R199's count is 1, 2 or 3. -/
theorem accessCount_bounds (i : Instr) : 1 ≤ accessCount i ∧ accessCount i ≤ 3 := by
  cases i <;> simp [accessCount]

/-- Settles O50: the fetch reads each byte of the instruction once, and the data accesses follow. -/
theorem accessCounts : Obligations.AccessCounts := by
  unfold Obligations.AccessCounts
  intro s i hrun hfetch
  have hcount : (stepAccesses s).length = accessCount i := by
    rw [stepAccesses_of_fetch_ok hrun hfetch, fetchAccesses_of_fetch_ok hfetch, List.length_append, List.length_map,
      List.length_range, encode_length_add_dataAccesses_length]
  exact ⟨hcount, hcount ▸ accessCount_bounds i⟩

/-! ## Reset and the program image (R190, R193, R194) -/

/-- Settles O48: memory after boot is MEM_INIT, here the image followed by 0. -/
theorem imageIsLoadedFromZero : Obligations.ImageIsLoadedFromZero := by
  unfold Obligations.ImageIsLoadedFromZero
  intro image a
  rw [boot_memRead]
  exact ⟨List.getD_eq_getElem image 0x00, List.getD_eq_default image 0x00, Mem.wf_ofInit _⟩

/-- Filling cells with what an unlisted cell reads as lists none of them. -/
theorem Mem.fill_unlisted (lo n : Nat) : Mem.fill (fun _ => Config.core.unlisted) lo n = [] := by
  induction n generalizing lo with
  | zero => rfl
  | succ n ih => simpa only [Mem.fill, if_true] using ih (lo + 1)

/-- Settles O45: an unlisted cell reads as 0, so the MEM_INIT that is 0 everywhere lists no cell. -/
theorem resetHasZeroFilledMemory : Obligations.ResetHasZeroFilledMemory := by
  unfold Obligations.ResetHasZeroFilledMemory
  exact congrArg State.resetOver (Mem.fill_unlisted 0 Config.core.memSize).symm

/-- Settles O46: reset keeps the memory and nothing else of the state, and the machine it leaves is Running. -/
theorem resetFromAnyState : Obligations.ResetFromAnyState := by
  unfold Obligations.ResetFromAnyState
  intro s
  exact ⟨rfl, resetOver_reg _ 7, fun r hr => (resetOver_reg _ r).trans (if_neg hr), rfl, rfl, rfl, rfl, rfl, rfl,
    fun _ => rfl, exists_step_of_running rfl⟩

end Sys2Proof.Machine
